-- ==== Sys2Proof/Word.lean ====
section
/-! DEFINITION. The word types of the machine: what the spec treats as bits (R9, R71). -/

namespace Sys2Proof

/-- A 4-bit field of an instruction word: a register index or a row count (R71). -/
abbrev Nibble := BitVec 4

/-- A general register, a timer, an immediate byte, a memory byte (R20, R24, R29). -/
abbrev Byte := BitVec 8

/-- The 12-bit address field NNN (R71). -/
abbrev Addr12 := BitVec 12

/-- An instruction word, `pc`, `I`, a call-stack entry (R22, R26, R27, R70). -/
abbrev Word := BitVec 16

end Sys2Proof
end

