-- ==== Sys2Proof/Syntax.lean ====
section
/-! DEFINITION. The instructions: one constructor per row of spec/opcode_table.json, in the table's order. -/

namespace Sys2Proof

/-- One constructor per opcode-table row, carrying every bit of the word its row leaves free (R71, R74).
`cls` and `ret` carry the ignored bits 11..8, because the diagnostics event of a faulting RET records the
whole word (R185). The unimplemented families carry their fields, because their event records the word (R160). -/
inductive Instr where
  /-- `0XE0` (R110). -/
  | cls (ignored : Nibble)
  /-- `0XEE` (R111). -/
  | ret (ignored : Nibble)
  /-- `0NNN` with a low byte other than E0 and EE (R161). -/
  | unimpl0 (nnn : Addr12)
  /-- `1NNN` (R112). -/
  | jp (nnn : Addr12)
  /-- `2NNN` (R113). -/
  | call (nnn : Addr12)
  /-- `3XYN` (R162). -/
  | unimpl3 (x y n : Nibble)
  /-- `4XYN` (R163). -/
  | unimpl4 (x y n : Nibble)
  /-- `5XYN` (R164). -/
  | unimpl5 (x y n : Nibble)
  /-- `6XNN` (R130). -/
  | ldImm (x : Nibble) (nn : Byte)
  /-- `7XNN` (R131). -/
  | addImm (x : Nibble) (nn : Byte)
  /-- `8XYN` (R165). -/
  | unimpl8 (x y n : Nibble)
  /-- `9XYN` (R166). -/
  | unimpl9 (x y n : Nibble)
  /-- `ANNN` (R132). -/
  | ldIndex (nnn : Addr12)
  /-- `BXYN` (R167). -/
  | unimplB (x y n : Nibble)
  /-- `CXYN` (R168). -/
  | unimplC (x y n : Nibble)
  /-- `DXYN` (R140). -/
  | drw (x y n : Nibble)
  /-- `EXYN` (R169). -/
  | unimplE (x y n : Nibble)
  /-- `FXYN` (R170). -/
  | unimplF (x y n : Nibble)
  deriving DecidableEq, Repr

end Sys2Proof
end

