-- ==== Sys2Proof/WellFormed.lean ====
section
/-! DEFINITION. Which instruction terms stand for a word of their own row. -/

namespace Sys2Proof

/-- The one relation between a constructor and its fields that the types do not carry: a family-0
unimplemented word has a low byte other than `0xE0` and `0xEE` (R74, R161). -/
def Instr.wellFormed : Instr → Bool
  | .unimpl0 nnn => nnn.setWidth 8 != 0xE0#8 && nnn.setWidth 8 != 0xEE#8
  | .cls _ | .ret _ | .jp _ | .call _ | .ldImm _ _ | .addImm _ _ | .ldIndex _ | .drw _ _ _ => true
  | .unimpl3 _ _ _ | .unimpl4 _ _ _ | .unimpl5 _ _ _ | .unimpl8 _ _ _ | .unimpl9 _ _ _ => true
  | .unimplB _ _ _ | .unimplC _ _ _ | .unimplE _ _ _ | .unimplF _ _ _ => true

end Sys2Proof
end

