-- ==== Sys2Proof/Decode.lean ====
section
/-! DEFINITION. The instruction decoder (R70 to R77), the encoder, and the opcode map of R74 as data. -/

namespace Sys2Proof

/-! ## Fields (R71) -/

/-- `F = word[15:12]`, the family. -/
def fieldF (w : Word) : Nibble := w.extractLsb' 12 4

/-- `X = word[11:8]`. -/
def fieldX (w : Word) : Nibble := w.extractLsb' 8 4

/-- `Y = word[7:4]`. -/
def fieldY (w : Word) : Nibble := w.extractLsb' 4 4

/-- `N = word[3:0]`. -/
def fieldN (w : Word) : Nibble := w.extractLsb' 0 4

/-- `NN = word[7:0]`. -/
def fieldNN (w : Word) : Byte := w.extractLsb' 0 8

/-- `NNN = word[11:0]`. -/
def fieldNNN (w : Word) : Addr12 := w.extractLsb' 0 12

/-! ## Decoding -/

/-- Family 0 is told apart by the low byte alone: bits 11..8 are not examined (R74, decision D20). -/
def decodeFamily0 (w : Word) : Instr :=
  if fieldNN w = 0xE0#8 then .cls (fieldX w)
  else if fieldNN w = 0xEE#8 then .ret (fieldX w)
  else .unimpl0 (fieldNNN w)

/-- `Decode(word)`: total over all 65536 words (R73), dispatching on `F` (R74, R75). The last arm is family F. -/
def decode (w : Word) : Instr :=
  match fieldF w with
  | 0x0#4 => decodeFamily0 w
  | 0x1#4 => .jp (fieldNNN w)
  | 0x2#4 => .call (fieldNNN w)
  | 0x3#4 => .unimpl3 (fieldX w) (fieldY w) (fieldN w)
  | 0x4#4 => .unimpl4 (fieldX w) (fieldY w) (fieldN w)
  | 0x5#4 => .unimpl5 (fieldX w) (fieldY w) (fieldN w)
  | 0x6#4 => .ldImm (fieldX w) (fieldNN w)
  | 0x7#4 => .addImm (fieldX w) (fieldNN w)
  | 0x8#4 => .unimpl8 (fieldX w) (fieldY w) (fieldN w)
  | 0x9#4 => .unimpl9 (fieldX w) (fieldY w) (fieldN w)
  | 0xA#4 => .ldIndex (fieldNNN w)
  | 0xB#4 => .unimplB (fieldX w) (fieldY w) (fieldN w)
  | 0xC#4 => .unimplC (fieldX w) (fieldY w) (fieldN w)
  | 0xD#4 => .drw (fieldX w) (fieldY w) (fieldN w)
  | 0xE#4 => .unimplE (fieldX w) (fieldY w) (fieldN w)
  | _ => .unimplF (fieldX w) (fieldY w) (fieldN w)

/-- The two bytes of a word, most significant at the lower address (R55). -/
def wordBytes (w : Word) : List Byte := [w.extractLsb' 8 8, w.extractLsb' 0 8]

/-- `mem[a] ‖ mem[a+1]`: the byte at the lower address is bits 15..8 (R52, R55). -/
def wordOfBytes (hi lo : Byte) : Word := hi ++ lo

/-- Why a byte sequence is no instruction. -/
inductive DecodeError where
  /-- Fewer than the two bytes every instruction has (R70). -/
  | truncated
  deriving DecidableEq, Repr

/-- The decoder on bytes in memory order: the first instruction and the bytes after it, or a named rejection. -/
def decodeBytes : List Byte → Except DecodeError (Instr × List Byte)
  | hi :: lo :: rest => .ok (decode (wordOfBytes hi lo), rest)
  | [_] | [] => .error .truncated

/-- The first word of an instruction whose bits are `w`, of which the table gives `nbits`; the rest are 0. -/
def tableWord (nbits w : Nat) : Word := BitVec.ofNat 16 (w % 2 ^ nbits)

/-- What the decoder reads from an instruction numbered as spec/opcode_table.json numbers it, its word laid out
as the hardware stores it. -/
def decodeTableWord (nbits w : Nat) : Option Instr :=
  match decodeBytes (wordBytes (tableWord nbits w)) with
  | .ok (i, _) => some i
  | .error _ => none

/-! ## Encoding -/

/-- `F ‖ NNN`. -/
def packNNN (f : Nibble) (nnn : Addr12) : Word := f ++ nnn

/-- `F ‖ X ‖ NN`. -/
def packXNN (f x : Nibble) (nn : Byte) : Word := f ++ (x ++ nn : BitVec 12)

/-- `F ‖ X ‖ Y ‖ N`. -/
def packXYN (f x y n : Nibble) : Word := f ++ (x ++ (y ++ n : BitVec 8) : BitVec 12)

/-- The word of an instruction, by the encoding table of R74. -/
def encode : Instr → Word
  | .cls ignored => packXNN 0x0 ignored 0xE0
  | .ret ignored => packXNN 0x0 ignored 0xEE
  | .unimpl0 nnn => packNNN 0x0 nnn
  | .jp nnn => packNNN 0x1 nnn
  | .call nnn => packNNN 0x2 nnn
  | .unimpl3 x y n => packXYN 0x3 x y n
  | .unimpl4 x y n => packXYN 0x4 x y n
  | .unimpl5 x y n => packXYN 0x5 x y n
  | .ldImm x nn => packXNN 0x6 x nn
  | .addImm x nn => packXNN 0x7 x nn
  | .unimpl8 x y n => packXYN 0x8 x y n
  | .unimpl9 x y n => packXYN 0x9 x y n
  | .ldIndex nnn => packNNN 0xA nnn
  | .unimplB x y n => packXYN 0xB x y n
  | .unimplC x y n => packXYN 0xC x y n
  | .drw x y n => packXYN 0xD x y n
  | .unimplE x y n => packXYN 0xE x y n
  | .unimplF x y n => packXYN 0xF x y n

/-! ## The opcode map as data (R74) -/

/-- A row of R74: the mnemonic of the opcode table, the match and the mask. -/
structure OpcodeRow where
  mnemonic : String
  pattern : Word
  mask : Word
  deriving DecidableEq, Repr

/-- Does a word match a row? -/
def OpcodeRow.matches (r : OpcodeRow) (w : Word) : Bool := w &&& r.mask == r.pattern

/-- Is a word one of a row's own, once the rest of family 0 has given up the words of the two exact rows (R74:
"excluding the two rows above")? -/
def OpcodeRow.takes (r : OpcodeRow) (w : Word) : Bool :=
  r.matches w && (r.pattern != 0x0000#16 || (fieldNN w != 0xE0#8 && fieldNN w != 0xEE#8))

/-- The rows of R74 in the order a decoder tests them (R75): the two exact family-0 rows stand before the rest of
family 0, which their exclusion makes disjoint from them. -/
def opcodeMap : List OpcodeRow :=
  [ ⟨"CLS", 0x00E0#16, 0xF0FF#16⟩, ⟨"RET", 0x00EE#16, 0xF0FF#16⟩, ⟨"UNIMPL.0", 0x0000#16, 0xF000#16⟩,
    ⟨"JP", 0x1000#16, 0xF000#16⟩, ⟨"CALL", 0x2000#16, 0xF000#16⟩, ⟨"UNIMPL.3", 0x3000#16, 0xF000#16⟩,
    ⟨"UNIMPL.4", 0x4000#16, 0xF000#16⟩, ⟨"UNIMPL.5", 0x5000#16, 0xF000#16⟩, ⟨"LD_Vx_NN", 0x6000#16, 0xF000#16⟩ ] ++
  [ ⟨"ADD_Vx_NN", 0x7000#16, 0xF000#16⟩, ⟨"UNIMPL.8", 0x8000#16, 0xF000#16⟩, ⟨"UNIMPL.9", 0x9000#16, 0xF000#16⟩,
    ⟨"LD_I_NNN", 0xA000#16, 0xF000#16⟩, ⟨"UNIMPL.B", 0xB000#16, 0xF000#16⟩, ⟨"UNIMPL.C", 0xC000#16, 0xF000#16⟩,
    ⟨"DRW_Vx_Vy_N", 0xD000#16, 0xF000#16⟩, ⟨"UNIMPL.E", 0xE000#16, 0xF000#16⟩, ⟨"UNIMPL.F", 0xF000#16, 0xF000#16⟩ ]

/-- The mnemonic of the opcode-table row an instruction belongs to. -/
def Instr.mnemonic : Instr → String
  | .cls _ => "CLS"
  | .ret _ => "RET"
  | .unimpl0 _ => "UNIMPL.0"
  | .jp _ => "JP"
  | .call _ => "CALL"
  | .unimpl3 _ _ _ => "UNIMPL.3"
  | .unimpl4 _ _ _ => "UNIMPL.4"
  | .unimpl5 _ _ _ => "UNIMPL.5"
  | .ldImm _ _ => "LD_Vx_NN"
  | .addImm _ _ => "ADD_Vx_NN"
  | .unimpl8 _ _ _ => "UNIMPL.8"
  | .unimpl9 _ _ _ => "UNIMPL.9"
  | .ldIndex _ => "LD_I_NNN"
  | .unimplB _ _ _ => "UNIMPL.B"
  | .unimplC _ _ _ => "UNIMPL.C"
  | .drw _ _ _ => "DRW_Vx_Vy_N"
  | .unimplE _ _ _ => "UNIMPL.E"
  | .unimplF _ _ _ => "UNIMPL.F"

/-- The row of `opcodeMap` a word selects: the first that matches (R75). -/
def selectRow (w : Word) : Option OpcodeRow := opcodeMap.find? (·.matches w)

end Sys2Proof
end

