-- ==== Sys2Proof/Machine/Cells.lean ====
section
/-! DEFINITION. Sparse cells in canonical form: one representation for memory bytes and framebuffer cells. -/

namespace Sys2Proof.Machine

/-- The value at key `a`; a key that is not listed reads as `d`. -/
def Cells.get {β : Type} (d : β) : List (Nat × β) → Nat → β
  | [], _ => d
  | (k, v) :: l, a => if k = a then v else Cells.get d l a

/-- A cell as an entry, or nothing where it holds what an unlisted key reads as. -/
def Cells.entry {β : Type} [DecidableEq β] (d : β) (a : Nat) (v : β) : List (Nat × β) :=
  if v = d then [] else [(a, v)]

/-- Write `v` at key `a`, keeping the list in rising order and free of default entries. -/
def Cells.put {β : Type} [DecidableEq β] (d : β) : List (Nat × β) → Nat → β → List (Nat × β)
  | [], a, v => Cells.entry d a v
  | (k, w) :: l, a, v =>
    if a < k then Cells.entry d a v ++ (k, w) :: l
    else if a = k then Cells.entry d a v ++ l
    else (k, w) :: Cells.put d l a v

/-- The canonical form: keys strictly rising, no entry equal to the default. -/
abbrev Cells.Canonical {β : Type} (d : β) (l : List (Nat × β)) : Prop :=
  l.Pairwise (fun p q => p.1 < q.1) ∧ ∀ p ∈ l, p.2 ≠ d

/-- Every listed key is below `n`. -/
abbrev Cells.Below {β : Type} (n : Nat) (l : List (Nat × β)) : Prop := ∀ p ∈ l, p.1 < n

end Sys2Proof.Machine
end

