-- ==== Sys2Proof/Config.lean ====
section
/-! DEFINITION. What an instance fixes: the parameters of R7. No instruction of this hardware leaves a
result undefined, so there is no free value here. -/

namespace Sys2Proof.Config

/-- Bytes of addressable memory (R7, R58). -/
def memSize : Nat := 4096

/-- Return addresses the call stack holds (R7, R27). -/
def stackDepth : Nat := 16

/-- Pixels of a sprite row (R7). -/
def spriteWidth : Nat := 8

/-- The most rows a sprite has (R7, R141). -/
def spriteHeightMax : Nat := 15

/-- `UNWRITTEN_READ` (R7, R37, decision D4): what a read of a general register or of `I` does that nothing has written
since reset. -/
inductive UnwrittenRead where
  /-- It returns the reset value 0. -/
  | zero
  /-- It ends the run with a fault of the model's own. -/
  | fault
  deriving DecidableEq, Repr

/-- The OPEN parameters of R7 and its model option `UNWRITTEN_READ`, fixed for the life of one instance (R8). DESIGN
CHOICE (log 2), safe: they are data carried by the state, which no step writes, so a statement about every state holds
for every value of them. -/
structure Params where
  /-- `DISP_W`, an integer ≥ 1 (D1). -/
  dispW : Nat
  /-- `DISP_H`, an integer ≥ 1 (D1). -/
  dispH : Nat
  /-- `WRAP_MODE`: wrap (true) or clip (false) sprite pixels beyond the edge (D2). -/
  wrapMode : Bool
  /-- `ENTRY`: where the program image is loaded and the reset value of `pc` (D3). -/
  entry : Word
  /-- `TIMER_HZ`: host-owned; no rule of the core reads it (D16). -/
  timerHz : Nat
  /-- `UNWRITTEN_READ`: the model option of R37, `zero` in this spec. -/
  unwrittenRead : UnwrittenRead
  deriving DecidableEq, Repr

/-- The ranges R7 gives the OPEN parameters: both sides of the display at least 1. -/
abbrev Params.wf (p : Params) : Prop := 1 ≤ p.dispW ∧ 1 ≤ p.dispH

/-- PRESUMED (log 1), unsafe: the classic CHIP-8 values, which R7 offers a simulator "that needs concrete values"
and which no proof may assume, with `UNWRITTEN_READ` at R7's own value. Only `State.reset` uses them. -/
def Params.simulator : Params :=
  { dispW := 64
    dispH := 32
    wrapMode := false
    entry := 0x200#16
    timerHz := 60
    unwrittenRead := .zero }

end Sys2Proof.Config
end

