-- ==== Sys2Proof/Machine/State.lean ====
section
/-! DEFINITION. The machine's state as plain data, the reasons a step can stop, and the state after reset. -/

namespace Sys2Proof.Machine

/-- The run-state (R30). -/
inductive RunState where
  | running
  | paused
  | stepping
  | halted
  deriving DecidableEq, Repr

/-- The fatal fault kinds (R180, R183). `addressFault` is kept so that the fetch is total; no step reaches it. -/
inductive FatalKind where
  | invalidProgramCounter
  | addressFault
  | stackOverflow
  | stackUnderflow
  deriving DecidableEq, Repr

/-- The recoverable fault kinds (R180). -/
inductive RecoverableKind where
  | spriteTooTall
  deriving DecidableEq, Repr

/-- The kinds a diagnostics event can have (R33). -/
inductive EventKind where
  | fatal (k : FatalKind)
  | recoverable (k : RecoverableKind)
  | unimplemented
  deriving DecidableEq, Repr

/-- One diagnostics event `(kind, addr, word)`; `word` is absent where nothing was fetched (R33). -/
structure Event where
  kind : EventKind
  addr : Word
  word : Option Word
  deriving DecidableEq, Repr

/-- The result of a step (R35). -/
inductive StepResult where
  | ok
  | recoverable (k : RecoverableKind)
  | fatal (k : FatalKind)
  deriving DecidableEq, Repr

/-- Memory (R29): the bytes that are not 0, by strictly rising address. -/
abbrev Memory := List Host.Cell

/-- The framebuffer (R28): the lit cells, each as `(y * DISP_W + x, true)`, by strictly rising index. DESIGN CHOICE
(log 5), safe: a cell that is not listed is off. -/
abbrev Framebuffer := List (Nat × Bool)

/-- The machine state of R36: "exactly these fields". -/
structure Arch where
  /-- `x[0..15]` (R20); `x[15]` is `VF` (R21). -/
  regs : Vector Byte 16
  /-- `I` (R22). -/
  index : Word
  /-- `pc` (R26). -/
  pc : Word
  /-- `sp`, the depth of the call stack (R25). -/
  sp : Byte
  /-- `stack[1..16]` (R27); slot `k` is element `k - 1`. -/
  stack : Vector Word 16
  /-- `dt` (R24). -/
  dt : Byte
  /-- `st` (R24). -/
  st : Byte
  /-- `fb` (R28). -/
  fb : Framebuffer
  /-- `mem` (R29). -/
  mem : Memory
  /-- `run_state` (R30). -/
  runState : RunState
  /-- The diagnostics output, oldest event first (R33). -/
  diag : List Event
  deriving DecidableEq, Repr

/-- The whole state: the machine state of R36 and what stands beside it: the bookkeeping bits of R37, the two ports of a
step (whose type has no argument and no result for them), and the instance's parameters. -/
structure State extends Arch where
  /-- The bookkeeping bit of each general register: written since reset? (R37; model-only.) -/
  regWritten : Vector Bool 16
  /-- The bookkeeping bit of `I` (R37; model-only). -/
  indexWritten : Bool
  /-- The input snapshot the host supplies for the next step (R34). DESIGN CHOICE (log 3), safe. -/
  keys : Vector Bool 16
  /-- The result of the last step (R35). DESIGN CHOICE (log 4), safe. -/
  result : StepResult
  /-- The instance's parameters (R7, R8). DESIGN CHOICE (log 2), safe. -/
  params : Config.Params
  deriving DecidableEq, Repr

/-- Why the machine stops without a next state. A fatal fault of the hardware is NOT one of these: it is a next
state with `run_state` Halted (R186). -/
inductive Fault where
  /-- Raised by `step` on a Halted machine: "no step exists" (R96, K15). Safe: no claim about a step from Halted
  can be proved but that there is none. -/
  | haltedNoStep
  /-- Raised by CALL or RET in a state whose `sp` is above `STACK_DEPTH`, where the slot they address does not
  exist (R25, R27); no run reaches such a state. Safe (log 9). -/
  | noStackSlot
  /-- Raised by ADD and DRW where the parameter `UNWRITTEN_READ` is `fault` and they read a general register or `I` that
  nothing has written since reset (R37: `UnwrittenRead`, "model-only"); never where it is `zero`. Safe: "The option errs
  toward unprovable". -/
  | unwrittenRead
  deriving DecidableEq, Repr

/-- Why the model gives an instruction no meaning. -/
inductive Refusal where
  /-- Raised only by an arm of `exec` whose instruction has no meaning yet; no arm does. Safe. -/
  | notModelled (mnemonic : String)
  deriving DecidableEq, Repr

/-- What a meaning answers. -/
abbrev Outcome := Host.Outcome State Fault Refusal

/-- Construction of an instance with given parameters (R36, R220): every bookkeeping bit is clear (R37). The two port
fields take the model's own values: no key pressed (log 3), result `Ok` (log 4). -/
def State.resetWith (p : Config.Params) : State :=
  { regs := Vector.replicate 16 0#8
    index := 0#16
    pc := p.entry
    sp := 0#8
    stack := Vector.replicate 16 0#16
    dt := 0#8
    st := 0#8
    fb := []
    mem := []
    runState := .running
    diag := []
    regWritten := Vector.replicate 16 false
    indexWritten := false
    keys := Vector.replicate 16 false
    result := .ok
    params := p }

/-- The machine right after reset. PRESUMED (log 1), unsafe: the instance with the classic parameter values, since
R7 leaves them OPEN. -/
def State.reset : State := State.resetWith Config.Params.simulator

end Sys2Proof.Machine
end

