-- ==== Sys2Proof/Machine/Ops.lean ====
section
/-! DEFINITION. The named operations over registers, memory, framebuffer and ports; taking a fault; the fetch unit
and the step cycle. -/

namespace Sys2Proof.Machine

/-! ## Numeric codes (R30, R181; decisions D11 and D12) -/

/-- The 2-bit code of a run-state (R30). -/
def RunState.code : RunState → BitVec 2
  | .running => 0
  | .paused => 1
  | .stepping => 2
  | .halted => 3

/-- The code of a fatal kind (R181). -/
def FatalKind.code : FatalKind → Nat
  | .invalidProgramCounter => 1
  | .addressFault => 2
  | .stackOverflow => 3
  | .stackUnderflow => 4

/-- The code of a recoverable kind (R181). -/
def RecoverableKind.code : RecoverableKind → Nat
  | .spriteTooTall => 5

/-- The code in the `kind` field of an event (R181). -/
def EventKind.code : EventKind → Nat
  | .fatal k => k.code
  | .recoverable k => k.code
  | .unimplemented => 6

/-- The code on the `result` port (R181, R200). -/
def StepResult.code : StepResult → Nat
  | .ok => 0
  | .recoverable k => k.code
  | .fatal k => k.code

/-! ## General registers, `I`, `pc`, timers and ports -/

/-- `x[i]` (R20). -/
def State.reg (s : State) (i : Nibble) : Byte := s.regs[i.toNat]'(by have := i.isLt; omega)

/-- `x[i] <- v` (R20); no register is hard-wired. A write sets the register's bookkeeping bit (R37). -/
def State.setReg (s : State) (i : Nibble) (v : Byte) : State :=
  { s with
    regs := s.regs.set i.toNat v (by have := i.isLt; omega)
    regWritten := s.regWritten.set i.toNat true (by have := i.isLt; omega) }

/-- `I <- v` (R22), which sets the bookkeeping bit of `I` (R37). -/
def State.setIndex (s : State) (v : Word) : State := { s with index := v, indexWritten := true }

/-- May `x[i]` be read? Always where `UNWRITTEN_READ` is `zero`; where it is `fault`, if its bit is set (R37). -/
def State.regReadable (s : State) (i : Nibble) : Bool :=
  s.params.unwrittenRead == .zero || s.regWritten[i.toNat]'(by have := i.isLt; omega)

/-- May `I` be read (R37)? -/
def State.indexReadable (s : State) : Bool := s.params.unwrittenRead == .zero || s.indexWritten

/-- `pc <- target` (R10, R26). -/
def State.setPc (s : State) (v : Word) : State := { s with pc := v }

/-- `dt <- v`, by the host only (R24, R195). -/
def State.setDt (s : State) (v : Byte) : State := { s with dt := v }

/-- `st <- v`, by the host only (R24, R195). -/
def State.setSt (s : State) (v : Byte) : State := { s with st := v }

/-- `run_state <- r` (R30). -/
def State.setRunState (s : State) (r : RunState) : State := { s with runState := r }

/-- The host's input snapshot for the next step (R34, R196). -/
def State.setKeys (s : State) (k : Vector Bool 16) : State := { s with keys := k }

/-- The value on the `result` port (R35). -/
def State.setResult (s : State) (r : StepResult) : State := { s with result := r }

/-- `emit Diag(kind, addr, word)`: append one event (R11, R33). -/
def State.emit (s : State) (e : Event) : State := { s with diag := s.diag ++ [e] }

/-- A handler that raised no fault: the step's result is `Ok` (R95). -/
def State.ok (s : State) : State := s.setResult .ok

/-! ## The call stack (R25, R27; decision D6) -/

/-- `stack[k]`, for a slot number 1 to 16; there is no other slot. -/
def State.slot (s : State) (k : Nat) : Option Word :=
  if k = 0 then none else s.stack[k - 1]?

/-- `stack[k] <- v`, for a slot number 1 to 16. -/
def State.setSlot (s : State) (k : Nat) (v : Word) : State :=
  { s with stack := s.stack.setIfInBounds (k - 1) v }

/-- `sp <- v`. -/
def State.setSp (s : State) (v : Byte) : State := { s with sp := v }

/-- The push half of the call-stack controller: increment `sp`, then store at the new slot (R113). The caller has
checked that `sp` is below `STACK_DEPTH`. -/
def State.push (s : State) (v : Word) : State := (s.setSp (s.sp + 1)).setSlot (s.sp + 1).toNat v

/-! ## Memory (R50 to R55) -/

/-- The canonical form of memory: rising addresses of the 4096-byte space, no byte equal to 0 listed. -/
abbrev Memory.wf (m : Memory) : Prop := Cells.Canonical 0#8 m ∧ Cells.Below Config.memSize m

/-- `mem[a]` for a physical address; a byte nothing has written is 0, the spec's reset contents (R29, R220). -/
def State.byteAt (s : State) (a : Nat) : Byte := Cells.get 0#8 s.mem a

/-- The memory address translator (R50). -/
def translate (addr : Nat) : Nat := addr % Config.memSize

/-- `MemRead(addr, 1)` (R51). -/
def State.memRead (s : State) (addr : Nat) : Byte := s.byteAt (translate addr)

/-- `MemWrite(addr, 1, v)`: the host's byte write; no instruction uses it (R54). -/
def State.memWrite (s : State) (addr : Nat) (v : Byte) : State :=
  { s with mem := Cells.put 0#8 s.mem (translate addr) v }

/-- Bytes written one after another from `addr` on. -/
def State.writeBytes (s : State) (addr : Nat) : List Byte → State
  | [] => s
  | b :: bs => (s.memWrite addr b).writeBytes (addr + 1) bs

/-- `FetchWord(a)`: two bytes, big-endian, without translation (R52). -/
def State.fetchWord (s : State) (a : Word) : Except FatalKind Word :=
  if a.toNat % 2 = 1 ∨ a.toNat + 1 ≥ Config.memSize then .error .addressFault
  else .ok (wordOfBytes (s.byteAt a.toNat) (s.byteAt (a.toNat + 1)))

/-! ## Framebuffer (R28) -/

/-- The cells of the display: `DISP_W * DISP_H`. -/
def displayCells (p : Config.Params) : Nat := p.dispW * p.dispH

/-- Where `fb[row][col]` is stored: `row * DISP_W + col` (R28). -/
def cellIndex (p : Config.Params) (row col : Nat) : Nat := row * p.dispW + col

/-- The canonical form of a framebuffer of an instance. -/
abbrev Framebuffer.wf (p : Config.Params) (f : Framebuffer) : Prop :=
  Cells.Canonical false f ∧ Cells.Below (displayCells p) f

/-- `fb[row][col]`: the render port's read (R28, R197). -/
def State.pixel (s : State) (row col : Nat) : Bool := Cells.get false s.fb (cellIndex s.params row col)

/-- The framebuffer as a whole. -/
def State.setFb (s : State) (f : Framebuffer) : State := { s with fb := f }

/-! ## Taking a fault (R186, R188, R160): this hardware's "trap entry". There is no return from one (R192). -/

/-- Inside a handler, the address its instruction was fetched from: `pc` already stands 2 past it (R91, R92).
DEDUCED (log 7), safe. -/
def State.fetchAddr (s : State) : Word := s.pc - 2#16

/-- A fatal fault: the event, `run_state <- Halted`, the result; nothing else (R186). -/
def State.takeFatal (s : State) (k : FatalKind) (addr : Word) (word : Option Word) : State :=
  ((s.emit ⟨.fatal k, addr, word⟩).setRunState .halted).setResult (.fatal k)

/-- A recoverable fault: the event and the result; nothing else (R95, R188). -/
def State.takeRecoverable (s : State) (k : RecoverableKind) (addr : Word) (word : Option Word) : State :=
  (s.emit ⟨.recoverable k, addr, word⟩).setResult (.recoverable k)

/-- The common behaviour of every unimplemented word: its event, result `Ok`, nothing else (R160, R189). -/
def State.noteUnimplemented (s : State) (i : Instr) : State :=
  (s.emit ⟨.unimplemented, s.fetchAddr, some (encode i)⟩).ok

/-! ## The step cycle (R90 to R97) -/

/-- The program-counter check (R90). -/
def pcValid (pc : Word) : Bool := decide (pc.toNat < Config.memSize - 1) && decide (pc.toNat % 2 = 0)

/-- The advance made after the fetch and before the execution (R92): a 16-bit addition that does not wrap modulo
the memory size (decision D8). -/
def State.advance (s : State) : State := s.setPc (s.pc + 2#16)

/-- The step of R97 over a given execution multiplexer. `run_state` is read for nothing but Halted (R96), the key
snapshot not at all (R34). -/
def runCycle (execute : Instr → State → Outcome) (s : State) : Outcome :=
  if s.runState = .halted then .fault .haltedNoStep
  else if pcValid s.pc = false then .next (s.takeFatal .invalidProgramCounter s.pc none)
  else
    match s.fetchWord s.pc with
    | .error k => .next (s.takeFatal k s.pc none)
    | .ok word => execute (decode word) s.advance

/-- `s` with a word stored where the next step fetches: at `pc`, big-endian. -/
def State.storeWordAtPc (s : State) (w : Word) : State := s.writeBytes s.pc.toNat (wordBytes w)

end Sys2Proof.Machine
end

