-- ==== Sys2Proof/Machine/Flags.lean ====
section
/-! DEFINITION. Every flag computation the spec gives: `VF` as the collision flag of the draw (R21, R143, R147). No
other instruction computes a flag; ADD records no carry (R131). -/

namespace Sys2Proof.Machine

/-- `VF` is `x[15]` (R21). -/
def flagReg : Nibble := 0xF#4

/-- What the draw writes to `VF` before it draws (R143). -/
def flagClear : Byte := 0#8

/-- What a collision writes to `VF` (R147). -/
def flagCollision : Byte := 1#8

/-- `VF` after one placed pixel with sprite bit `s` on a cell that held `c`: set by a collision, else kept (R147). -/
def flagAfterPixel (vf : Byte) (c s : Bool) : Byte := if c && s then flagCollision else vf

/-- The cell after one placed pixel: `c XOR s` (R147). -/
def cellAfterPixel (c s : Bool) : Bool := c ^^ s

/-- `x[X] + NN` truncated to 8 bits: the one arithmetic result of the instruction set, with no flag (R131, R133). -/
def addTrunc (a b : Byte) : Byte := BitVec.ofNat 8 ((a.toNat + b.toNat) % 256)

end Sys2Proof.Machine
end

