-- ==== Sys2Proof/Machine/Operands.lean ====
section
/-! DEFINITION. Every operand form the spec gives (R72): all immediates unsigned, none extended by sign, scaled or
shifted; and the bits of a sprite byte. -/

namespace Sys2Proof.Machine

/-- `NNN` written to `pc` or `I`: zero-extended to 16 bits (R72). -/
def operandNNN (nnn : Addr12) : Word := nnn.setWidth 16

/-- `NN`, used unchanged (R72). -/
def operandNN (nn : Byte) : Byte := nn

/-- `N`, an unsigned row count (R72). -/
def operandN (n : Nibble) : Nat := n.toNat

/-- `x[X]` or `x[Y]` as an unsigned number (R72, R142). -/
def operandReg (s : State) (i : Nibble) : Nat := (s.reg i).toNat

/-- Pixel `p` of a sprite byte: bit `7 - p`, pixel 0 leftmost (R146). -/
def spritePixel (b : Byte) (p : Nat) : Bool := b.getLsbD (7 - p)

end Sys2Proof.Machine
end

