-- ==== Sys2Proof/Machine/Draw.lean ====
section
/-! DEFINITION. The sprite blitter and DRW (R140 to R149). -/

namespace Sys2Proof.Machine

/-- What a draw changes while it runs: the framebuffer and `VF` (R149). -/
structure Blit where
  fb : Framebuffer
  vf : Byte
  deriving DecidableEq, Repr

/-- One placed pixel: XOR the sprite bit into the cell and note a collision (R147). -/
def blitPixel (p : Config.Params) (row col : Nat) (bit : Bool) (b : Blit) : Blit :=
  let i := cellIndex p row col
  let c := Cells.get false b.fb i
  { fb := Cells.put false b.fb i (cellAfterPixel c bit), vf := flagAfterPixel b.vf c bit }

/-- The pixels of one sprite row, leftmost first (R146): with wrap the column is taken modulo the width; without it
the first column past the edge ends the row. -/
def blitPixels (p : Config.Params) (row col0 : Nat) (sprite : Byte) : List Nat → Blit → Blit
  | [], b => b
  | k :: ks, b =>
    if p.wrapMode then
      blitPixels p row col0 sprite ks (blitPixel p row ((col0 + k) % p.dispW) (spritePixel sprite k) b)
    else if col0 + k ≥ p.dispW then b
    else blitPixels p row col0 sprite ks (blitPixel p row (col0 + k) (spritePixel sprite k) b)

/-- One sprite row (R145): with wrap the display row is taken modulo the height; without it a row past the bottom is
skipped whole. -/
def blitRow (p : Config.Params) (row col0 : Nat) (sprite : Byte) (b : Blit) : Blit :=
  if p.wrapMode then
    blitPixels p (row % p.dispH) col0 sprite (List.range Config.spriteWidth) b
  else if row ≥ p.dispH then b
  else blitPixels p row col0 sprite (List.range Config.spriteWidth) b

/-- The rows of a sprite in ascending order, row `r` read from `I + r` (R144, R148). `s` is the state the draw reads
`I`, memory and the parameters from; a draw writes none of them. -/
def blitRows (s : State) (col0 row0 : Nat) : List Nat → Blit → Blit
  | [], b => b
  | r :: rs, b =>
    blitRows s col0 row0 rs (blitRow s.params (row0 + r) col0 (s.memRead (s.index.toNat + r)) b)

/-- The reads of a draw that R37 names are permitted: `x[X]`, `x[Y]`, and `I` where a row is drawn. -/
def drawReadable (x y : Nibble) (height : Nat) (s : State) : Bool :=
  s.regReadable x && s.regReadable y && (height == 0 || s.indexReadable)

/-- What a draw of permitted height leaves (R142 to R148): the origin is read before `VF` is cleared. -/
def drawRows (x y : Nibble) (height : Nat) (s : State) : State :=
  let col0 := operandReg s x % s.params.dispW
  let row0 := operandReg s y % s.params.dispH
  let b := blitRows s col0 row0 (List.range height) { fb := s.fb, vf := flagClear }
  ((s.setFb b.fb).setReg flagReg b.vf).ok

/-- The draw contract `draw(machine, x_reg, y_reg, height)` (R140), for the instruction word `word`. The height
check (R141) comes before any read and can fail only for a caller other than DRW. -/
def drawSprite (x y : Nibble) (height : Nat) (word : Word) (s : State) : Outcome :=
  if height > Config.spriteHeightMax then .next (s.takeRecoverable .spriteTooTall s.fetchAddr (some word))
  else if drawReadable x y height s then .next (drawRows x y height s)
  else .fault .unwrittenRead

/-- DRW Vx, Vy, N (R140). -/
def execDrw (x y n : Nibble) (s : State) : Outcome :=
  drawSprite x y (operandN n) (encode (.drw x y n)) s

end Sys2Proof.Machine
end

