-- ==== Sys2Proof/Machine/Flow.lean ====
section
/-! DEFINITION. Clear screen, return, jump and call (R110 to R113): control transfer and the call-stack controller. -/

namespace Sys2Proof.Machine

/-- CLS: every cell off, `VF` and all else unchanged (R110). -/
def execCls (_ignored : Nibble) (s : State) : Outcome := .next (s.setFb []).ok

/-- RET (R111): with an empty stack, `Fatal(StackUnderflow)` and no write of its own (R185, decision D9); else `pc`
takes the top of the stack and `sp` drops by 1, the popped slot kept (decision D6). -/
def execRet (ignored : Nibble) (s : State) : Outcome :=
  if s.sp = 0#8 then .next (s.takeFatal .stackUnderflow s.fetchAddr (some (encode (.ret ignored))))
  else
    match s.slot s.sp.toNat with
    | some target => .next ((s.setPc target).setSp (s.sp - 1)).ok
    | none => .fault .noStackSlot

/-- JP: `pc <- zext_16(NNN)`, the target not checked (R112). -/
def execJp (nnn : Addr12) (s : State) : Outcome := .next (s.setPc (operandNNN nnn)).ok

/-- CALL (R113): with a full stack, `Fatal(StackOverflow)` and no write of its own (R184, decision D9); else push the
advanced `pc` and jump. -/
def execCall (nnn : Addr12) (s : State) : Outcome :=
  if s.sp.toNat = Config.stackDepth then
    .next (s.takeFatal .stackOverflow s.fetchAddr (some (encode (.call nnn))))
  else if s.sp.toNat < Config.stackDepth then .next ((s.push s.pc).setPc (operandNNN nnn)).ok
  else .fault .noStackSlot

end Sys2Proof.Machine
end

