-- ==== Sys2Proof/Machine/Register.lean ====
section
/-! DEFINITION. Load immediate, add immediate and load index (R130 to R132). -/

namespace Sys2Proof.Machine

/-- LD Vx, NN: `x[X] <- NN` (R130). -/
def execLdImm (x : Nibble) (nn : Byte) (s : State) : Outcome := .next (s.setReg x (operandNN nn)).ok

/-- ADD Vx, NN: `x[X] <- (x[X] + NN) mod 256`, no carry anywhere (R131). It reads `x[X]` (R37). -/
def execAddImm (x : Nibble) (nn : Byte) (s : State) : Outcome :=
  if s.regReadable x then .next (s.setReg x (addTrunc (s.reg x) (operandNN nn))).ok
  else .fault .unwrittenRead

/-- LD I, NNN: `I <- zext_16(NNN)` (R132). -/
def execLdIndex (nnn : Addr12) (s : State) : Outcome := .next (s.setIndex (operandNNN nnn)).ok

end Sys2Proof.Machine
end

