-- ==== Sys2Proof/Machine/Unimplemented.lean ====
section
/-! DEFINITION. The unimplemented families (R160 to R170): each executes as the one common behaviour of R160. The
classic CHIP-8 meanings of these words are NOT this hardware's. -/

namespace Sys2Proof.Machine

/-- Family 0 with a low byte other than E0 and EE (R161). -/
def execUnimpl0 (nnn : Addr12) (s : State) : Outcome := .next (s.noteUnimplemented (.unimpl0 nnn))

/-- Family 3: no skip (R162). -/
def execUnimpl3 (x y n : Nibble) (s : State) : Outcome := .next (s.noteUnimplemented (.unimpl3 x y n))

/-- Family 4: no skip (R163). -/
def execUnimpl4 (x y n : Nibble) (s : State) : Outcome := .next (s.noteUnimplemented (.unimpl4 x y n))

/-- Family 5, whatever its low nibble: no skip (R164). -/
def execUnimpl5 (x y n : Nibble) (s : State) : Outcome := .next (s.noteUnimplemented (.unimpl5 x y n))

/-- Family 8: no register changes, `VF` receives nothing (R165). -/
def execUnimpl8 (x y n : Nibble) (s : State) : Outcome := .next (s.noteUnimplemented (.unimpl8 x y n))

/-- Family 9: no skip (R166). -/
def execUnimpl9 (x y n : Nibble) (s : State) : Outcome := .next (s.noteUnimplemented (.unimpl9 x y n))

/-- Family B: no jump (R167). -/
def execUnimplB (x y n : Nibble) (s : State) : Outcome := .next (s.noteUnimplemented (.unimplB x y n))

/-- Family C: no register changes (R168). -/
def execUnimplC (x y n : Nibble) (s : State) : Outcome := .next (s.noteUnimplemented (.unimplC x y n))

/-- Family E: the key snapshot is not read, no skip (R169). -/
def execUnimplE (x y n : Nibble) (s : State) : Outcome := .next (s.noteUnimplemented (.unimplE x y n))

/-- Family F: no timer, key wait, memory or `I` access (R170). -/
def execUnimplF (x y n : Nibble) (s : State) : Outcome := .next (s.noteUnimplemented (.unimplF x y n))

end Sys2Proof.Machine
end

