-- ==== Sys2Proof/Machine/Dispatch.lean ====
section
/-! DEFINITION. The execution multiplexer (R94): exactly one meaning per instruction. -/

namespace Sys2Proof.Machine

def exec (i : Instr) (s : State) : Host.Outcome State Fault Refusal :=
  match i with
  | .cls ignored => Sys2Proof.Machine.execCls ignored s
  | .ret ignored => Sys2Proof.Machine.execRet ignored s
  | .unimpl0 nnn => Sys2Proof.Machine.execUnimpl0 nnn s
  | .jp nnn => Sys2Proof.Machine.execJp nnn s
  | .call nnn => Sys2Proof.Machine.execCall nnn s
  | .unimpl3 x y n => Sys2Proof.Machine.execUnimpl3 x y n s
  | .unimpl4 x y n => Sys2Proof.Machine.execUnimpl4 x y n s
  | .unimpl5 x y n => Sys2Proof.Machine.execUnimpl5 x y n s
  | .ldImm x nn => Sys2Proof.Machine.execLdImm x nn s
  | .addImm x nn => Sys2Proof.Machine.execAddImm x nn s
  | .unimpl8 x y n => Sys2Proof.Machine.execUnimpl8 x y n s
  | .unimpl9 x y n => Sys2Proof.Machine.execUnimpl9 x y n s
  | .ldIndex nnn => Sys2Proof.Machine.execLdIndex nnn s
  | .unimplB x y n => Sys2Proof.Machine.execUnimplB x y n s
  | .unimplC x y n => Sys2Proof.Machine.execUnimplC x y n s
  | .drw x y n => Sys2Proof.Machine.execDrw x y n s
  | .unimplE x y n => Sys2Proof.Machine.execUnimplE x y n s
  | .unimplF x y n => Sys2Proof.Machine.execUnimplF x y n s

end Sys2Proof.Machine
end

