-- ==== Sys2Proof/Machine/Step.lean ====
section
/-! DEFINITION. One step of the core (R97), and where the host places the instruction a step fetches. -/

namespace Sys2Proof.Machine

/-- One step: check, fetch, advance, decode, execute (R97). -/
def step (s : State) : Host.Outcome State Fault Refusal := runCycle exec s

/-- `s` with the instruction whose bits are `w` (numbered as spec/opcode_table.json numbers them) stored where `step`
fetches next: at `pc`. It stands for the host's program load (R222, log 10). -/
def State.withFetchWord (s : State) (nbits w : Nat) : State := s.storeWordAtPc (tableWord nbits w)

end Sys2Proof.Machine
end

