-- ==== Sys2Proof/Machine/Driver.lean ====
section
/-! DEFINITION. The host's legal moves between steps (R187, R195 to R201, R220, R222): the ports of R200 that are not
the core's own step; and the runner of R231. The host is no part of `step`; a model admits no other host move (R201). -/

namespace Sys2Proof.Machine

/-- The run-states between which the host may move the machine (R187). A write of Halted to a Halted machine changes nothing (C3). -/
def RunState.hostMay : RunState → RunState → Bool
  | .running, .paused => true
  | .paused, .running => true
  | .paused, .stepping => true
  | .stepping, .paused => true
  | .running, .halted => true
  | .paused, .halted => true
  | .stepping, .halted => true
  | .halted, .halted => true
  | .running, .running | .running, .stepping => false
  | .paused, .paused => false
  | .stepping, .running | .stepping, .stepping => false
  | .halted, .running | .halted, .paused | .halted, .stepping => false

/-- The two timers (R24). -/
inductive TimerName where
  | delay
  | sound
  deriving DecidableEq, Repr

/-- `timer_write` (R195, R200). -/
def State.writeTimer (s : State) (which : TimerName) (v : Byte) : State :=
  match which with
  | .delay => s.setDt v
  | .sound => s.setSt v

/-- The loader's copy: the image verbatim from `ENTRY` on (R222). -/
def State.loadImage (s : State) (image : List Byte) : State := s.writeBytes s.params.entry.toNat image

/-- The loader's requirement `len ≤ MEM_SIZE - ENTRY` (R222), written without a subtraction. -/
def imageFits (p : Config.Params) (image : List Byte) : Bool :=
  decide (p.entry.toNat + image.length ≤ Config.memSize)

/-- An instance, and what the host's moves depend on besides its state (R187, R201). -/
structure Rig where
  core : State
  /-- Has the first step been taken? Memory is written only before it; timers and run-state only "between steps", which
  is "after one step has returned" (R201, D15). -/
  started : Bool
  /-- Has a step been taken since the last run-state write? Stepping is left for Paused only after the step the host
  invoked in it (R187). -/
  stepped : Bool
  deriving DecidableEq, Repr

/-- May the host write the run-state `r` now (R187)? -/
def Rig.mayEnter (m : Rig) (r : RunState) : Bool :=
  m.core.runState.hostMay r && (m.core.runState != .stepping || r != .paused || m.stepped)

/-- What the host may ask for between steps (R201). -/
inductive HostMove where
  /-- Load a program image (R222). -/
  | load (image : List Byte)
  /-- `mem_write` (R54, R200). -/
  | writeByte (addr : Word) (v : Byte)
  /-- `step_req` with the key snapshot of this step (R199). -/
  | step (keys : Vector Bool 16)
  /-- `timer_write` (R195). -/
  | writeTimer (which : TimerName) (v : Byte)
  /-- A write of the run-state (R187). -/
  | setRunState (r : RunState)
  /-- `reset`: a new construction with the same parameters (R220, D25). -/
  | reset
  deriving DecidableEq, Repr

/-- Why a move is no move of a legal host. -/
inductive HostRefusal where
  /-- A memory write after the first step (R201). Safe. -/
  | memoryAfterStart
  /-- A timer or run-state write before the first step has returned (R201). Safe. -/
  | notBetweenSteps
  /-- An image longer than the memory past the entry point: a load-time failure (R222). Safe. -/
  | imageTooLong
  /-- A run-state write outside R187, leaving Stepping for Paused with no step taken among them. Safe. -/
  | illegalTransition
  /-- The core refused its instruction; it never does. Safe. -/
  | core (r : Refusal)
  deriving DecidableEq, Repr

/-- The instance newly constructed with parameters `p` (R220). -/
def Rig.construct (p : Config.Params) : Rig := { core := State.resetWith p, started := false, stepped := false }

/-- One step with its key snapshot (R199). -/
def Rig.takeStep (m : Rig) (keys : Vector Bool 16) : Host.Outcome Rig Fault HostRefusal :=
  match step (m.core.setKeys keys) with
  | .next t => .next { core := t, started := true, stepped := true }
  | .fault f => .fault f
  | .refused r => .refused (.core r)

/-- One move of the host (R201). -/
def drive (move : HostMove) (m : Rig) : Host.Outcome Rig Fault HostRefusal :=
  match move with
  | .load image =>
    if m.started then .refused .memoryAfterStart
    else if imageFits m.core.params image then .next { m with core := m.core.loadImage image }
    else .refused .imageTooLong
  | .writeByte addr v =>
    if m.started then .refused .memoryAfterStart
    else .next { m with core := m.core.memWrite addr.toNat v }
  | .step keys => m.takeStep keys
  | .writeTimer which v =>
    if m.started then .next { m with core := m.core.writeTimer which v }
    else .refused .notBetweenSteps
  | .setRunState r =>
    if m.started = false then .refused .notBetweenSteps
    else if m.mayEnter r then .next { m with core := m.core.setRunState r, stepped := false }
    else .refused .illegalTransition
  | .reset => .next (Rig.construct m.core.params)

/-! ## The end of a run (R229, R231) -/

/-- How a run under fuel stops. The two ends of R229 keep the final state; a run that exhausts its fuel has none
(R231). -/
inductive RunEnd where
  /-- A step returned `Fatal(k)` (R229). -/
  | fatal (k : FatalKind) (final : Rig)
  /-- The host wrote Halted (R229 `Quit`, R231). -/
  | quit (final : Rig)
  /-- The fuel ran out: no final state (R231). -/
  | outOfFuel
  /-- A stop of the model's own: `UnwrittenRead` ends the run (R37), a Halted machine has no step (R96). Safe. -/
  | stopped (f : Fault)
  /-- The host asked for a move that is none of R201. Safe. -/
  | noMove (r : HostRefusal)
  deriving DecidableEq, Repr

/-- Does a move that left `m` end the run? A fatal result and the host's Halted write do, Paused does not (R231). -/
def HostMove.ending (move : HostMove) (m : Rig) : Option RunEnd :=
  match move with
  | .step _ =>
    match m.core.result with
    | .fatal k => some (.fatal k m)
    | .ok | .recoverable _ => none
  | .setRunState .halted => some (.quit m)
  | .setRunState .running | .setRunState .paused | .setRunState .stepping => none
  | .load _ | .writeByte _ _ | .writeTimer _ _ | .reset => none

/-- The runner of R231: the host's moves `host j`, `host (j + 1)`, … from `m`, at most `fuel` of them. -/
def runHost (host : Nat → HostMove) : (fuel j : Nat) → Rig → RunEnd
  | 0, _, _ => .outOfFuel
  | fuel + 1, j, m =>
    match drive (host j) m with
    | .next m' =>
      match (host j).ending m' with
      | some e => e
      | none => runHost host fuel (j + 1) m'
    | .fault f => .stopped f
    | .refused r => .noMove r

end Sys2Proof.Machine
end

