-- ==== Sys2Proof/Safety.lean ====
section
/-! DEFINITION. The terms claims are stated in: the invariant of every state a run reaches, the state a step leaves,
and when a step exists. -/

namespace Sys2Proof.Machine

/-- The next state of an outcome, where there is one. -/
def nextState? (o : Outcome) : Option State :=
  match o with
  | .next t => some t
  | .fault _ => none
  | .refused _ => none

/-- A step exists and passes the program-counter check (R90, R96). -/
abbrev State.CanFetch (s : State) : Prop := s.runState ≠ .halted ∧ pcValid s.pc = true

/-- The reads an instruction makes are permitted by `UNWRITTEN_READ` (R37): everywhere where it is `zero`; where it is
`fault`, if ADD reads a written register, and DRW two of them and, where it draws a row, a written `I`. -/
abbrev State.Readable (s : State) (i : Instr) : Prop :=
  match i with
  | .addImm x _ => s.regReadable x = true
  | .drw x y n => s.regReadable x = true ∧ s.regReadable y = true ∧ (n = 0#4 ∨ s.indexReadable = true)
  | .cls _ | .ret _ | .jp _ | .call _ | .ldImm _ _ | .ldIndex _ => True
  | .unimpl0 _ | .unimpl3 _ _ _ | .unimpl4 _ _ _ | .unimpl5 _ _ _ | .unimpl8 _ _ _ | .unimpl9 _ _ _ => True
  | .unimplB _ _ _ | .unimplC _ _ _ | .unimplE _ _ _ | .unimplF _ _ _ => True

/-- A return address a CALL can have pushed: even and at most `0x1000` (R113, decision D7), or a slot's reset value. -/
abbrev returnAddress (w : Word) : Prop := w.toNat % 2 = 0 ∧ w.toNat ≤ 0x1000

/-- What holds in every state a run reaches: the display has a cell (R7), memory and framebuffer are in canonical form
and inside their ranges (R28, R29), `sp` is a depth (R25), `I` is a 12-bit address (R22), and every stack slot holds a
return address (D7). -/
abbrev State.Inv (s : State) : Prop :=
  s.params.wf ∧ Memory.wf s.mem ∧ Framebuffer.wf s.params s.fb ∧ s.sp.toNat ≤ Config.stackDepth ∧
    s.index.toNat ≤ 0xFFF ∧ ∀ k (h : k < 16), returnAddress s.stack[k]

/-! ## Frames -/

/-- What only the host writes is as before: timers, key port, parameters. -/
abbrev SameHostSide (s t : State) : Prop :=
  t.dt = s.dt ∧ t.st = s.st ∧ t.keys = s.keys ∧ t.params = s.params

/-- Every byte of memory reads as before, and memory is the same data. -/
abbrev SameMemory (s t : State) : Prop := (∀ a, t.byteAt a = s.byteAt a) ∧ t.mem = s.mem

/-- Every cell of the display is as before, and the framebuffer is the same data. -/
abbrev SameDisplay (s t : State) : Prop :=
  (∀ row col, t.pixel row col = s.pixel row col) ∧ t.fb = s.fb

/-- Every stack slot and the stack pointer are as before. -/
abbrev SameStack (s t : State) : Prop := (∀ k, t.slot k = s.slot k) ∧ t.sp = s.sp

/-- Every general register but those listed is as before. -/
abbrev SameRegsBut (written : List Nibble) (s t : State) : Prop :=
  ∀ i : Nibble, i ∉ written → t.reg i = s.reg i

/-! ## What a step fetches, and outcomes compared -/

/-- The big-endian word at an address (R55). -/
def State.wordAt (s : State) (a : Nat) : Word := wordOfBytes (s.byteAt a) (s.byteAt (a + 1))

/-- An outcome with its next state changed. -/
def mapNext (f : State → State) (o : Outcome) : Outcome :=
  match o with
  | .next t => .next (f t)
  | .fault k => .fault k
  | .refused r => .refused r

/-! ## Where the lit pixels of a draw land (R142, R144 to R146) -/

/-- The cell on which pixel `k` of sprite row `r` is placed, or none where it is skipped or clipped. -/
def landing (p : Config.Params) (row0 col0 r k : Nat) : Option (Nat × Nat) :=
  if p.wrapMode then some ((row0 + r) % p.dispH, (col0 + k) % p.dispW)
  else if row0 + r < p.dispH ∧ col0 + k < p.dispW then some (row0 + r, col0 + k)
  else none

/-- The origin of a draw: row and column (R142). -/
def State.origin (s : State) (x y : Nibble) : Nat × Nat :=
  ((s.reg y).toNat % s.params.dispH, (s.reg x).toNat % s.params.dispW)

/-- Is pixel `k` of sprite row `r` lit? Bit `7 - k` of the byte at `I + r` (R144, R146). -/
def State.lit (s : State) (r k : Nat) : Bool := (s.memRead (s.index.toNat + r)).getLsbD (7 - k)

/-- The cells the lit pixels of a draw are placed on, in the order of placing (R148). -/
def State.landings (s : State) (x y : Nibble) (height : Nat) : List (Nat × Nat) :=
  (List.range height).flatMap fun r =>
    (List.range 8).filterMap fun k =>
      if s.lit r k then landing s.params (s.origin x y).1 (s.origin x y).2 r k else none

end Sys2Proof.Machine

namespace Sys2Proof

/-- The general registers an instruction may write (R94). -/
def Instr.destRegs : Instr → List Nibble
  | .ldImm x _ | .addImm x _ => [x]
  | .drw _ _ _ => [0xF#4]
  | .cls _ | .ret _ | .jp _ | .call _ | .ldIndex _ => []
  | .unimpl0 _ | .unimpl3 _ _ _ | .unimpl4 _ _ _ | .unimpl5 _ _ _ | .unimpl8 _ _ _ | .unimpl9 _ _ _ => []
  | .unimplB _ _ _ | .unimplC _ _ _ | .unimplE _ _ _ | .unimplF _ _ _ => []

/-- Does the instruction belong to an unimplemented family (R160)? -/
def Instr.isUnimplemented : Instr → Bool
  | .unimpl0 _ | .unimpl3 _ _ _ | .unimpl4 _ _ _ | .unimpl5 _ _ _ | .unimpl8 _ _ _ | .unimpl9 _ _ _ => true
  | .unimplB _ _ _ | .unimplC _ _ _ | .unimplE _ _ _ | .unimplF _ _ _ => true
  | .cls _ | .ret _ | .jp _ | .call _ | .ldImm _ _ | .addImm _ _ | .ldIndex _ | .drw _ _ _ => false

/-- Does the instruction overwrite the advanced `pc` (R26)? -/
def Instr.writesPc : Instr → Bool
  | .ret _ | .jp _ | .call _ => true
  | .cls _ | .ldImm _ _ | .addImm _ _ | .ldIndex _ | .drw _ _ _ => false
  | .unimpl0 _ | .unimpl3 _ _ _ | .unimpl4 _ _ _ | .unimpl5 _ _ _ | .unimpl8 _ _ _ | .unimpl9 _ _ _ => false
  | .unimplB _ _ _ | .unimplC _ _ _ | .unimplE _ _ _ | .unimplF _ _ _ => false

end Sys2Proof
end

