-- ==== Sys2Proof/Certificates/Slice0/Obligations.lean ====
section
/-! DEFINITION. The statements for the provers, from the numbered rules of spec/. "The spec's decision Dn" marks a
clause the spec itself calls a decision; log n a choice of this model. -/

open Sys2Proof Sys2Proof.Machine

/-! ## Encoding -/

/-- No bit of an encoding is dropped: decoding the word of a well-formed instruction gives it back (R71, R74). -/
def Obligations.DecodeOfEncode : Prop :=
  ∀ i : Instr, i.wellFormed = true → decode (encode i) = i

/-- Every word has one meaning and keeps all its bits: decoding is total (R73) and loses nothing. -/
def Obligations.EncodeOfDecode : Prop :=
  ∀ w : Word, (decode w).wellFormed = true ∧ encode (decode w) = w

/-- The decoder gives each word the row of the opcode map that a decoder testing match and mask in order selects
(R74, R75); family 0 by the low byte alone is the spec's decision D20. -/
def Obligations.DecodeSelectsTableRow : Prop :=
  ∀ w : Word, (selectRow w).map OpcodeRow.mnemonic = some (decode w).mnemonic

/-- The rows are disjoint and cover all words (R75, an inference of the spec): exactly one row takes a word, the
family-0 row giving up the words of the two exact rows, and it is the row of the decoded instruction. -/
def Obligations.OpcodeRowsPartitionWords : Prop :=
  ∀ w : Word, ∃ r, opcodeMap.filter (·.takes w) = [r] ∧ r.mnemonic = (decode w).mnemonic

/-- The fields stand at fixed bit positions of every word and overlap as stated (R71). -/
def Obligations.FieldsAtFixedPositions : Prop :=
  ∀ w : Word,
    (fieldF w).toNat = w.toNat / 4096 ∧ (fieldX w).toNat = w.toNat / 256 % 16 ∧
    (fieldY w).toNat = w.toNat / 16 % 16 ∧ (fieldN w).toNat = w.toNat % 16 ∧
    (fieldNN w).toNat = w.toNat % 256 ∧ (fieldNNN w).toNat = w.toNat % 4096 ∧
    fieldNNN w = (fieldX w ++ fieldNN w : BitVec 12) ∧ fieldNN w = (fieldY w ++ fieldN w : BitVec 8)

/-- Decoding a byte sequence takes two bytes, big-endian (R55, R70); a shorter one is rejected by name. -/
def Obligations.DecodeTakesTwoBytes : Prop :=
  (∀ hi lo rest, decodeBytes (hi :: lo :: rest) = .ok (decode (hi ++ lo), rest)) ∧
  (∀ b, decodeBytes [b] = .error .truncated) ∧ decodeBytes [] = .error .truncated

/-- Words written out from the encodings of R74 decode to the instructions they stand for. -/
def Obligations.SampleWordsDecode : Prop :=
  decode 0x05E0 = .cls 5 ∧ decode 0x0FEE = .ret 0xF ∧ decode 0x00E1 = .unimpl0 0x0E1 ∧ decode 0x1ABC = .jp 0xABC ∧
  decode 0x2300 = .call 0x300 ∧ decode 0x6565 = .ldImm 5 0x65 ∧ decode 0x7505 = .addImm 5 0x05 ∧
  decode 0xA220 = .ldIndex 0x220 ∧ decode 0xD12F = .drw 1 2 0xF ∧ decode 0x8014 = .unimpl8 0 1 4 ∧
  decode 0xF055 = .unimplF 0 5 5

/-! ## The step -/

/-- A step runs the decoded instruction: where the bytes at `pc` decode to `i`, `step` is `exec i` on the state whose
`pc` has advanced by 2 (R91 to R94, assembled by the spec in R97). -/
def Obligations.StepRunsDecoded : Prop :=
  ∀ (s : State) (i : Instr) (rest : List Byte), s.CanFetch →
    decodeBytes [s.byteAt s.pc.toNat, s.byteAt (s.pc.toNat + 1)] = .ok (i, rest) →
    step s = exec i { s with pc := s.pc + 2#16 }

/-- An odd `pc`, or one without room for a word, ends the step with the fatal fault before memory is read: every
register, the stack, memory and the framebuffer are unchanged, `pc` included, and the machine is Halted; the valid
values are the even ones from 0 to `0xFFE` (R90). What the event holds is said by `EventOfEachStep`. -/
def Obligations.InvalidPcFaults : Prop :=
  (∀ s : State, s.runState ≠ .halted → ¬ (s.pc.toNat < 4096 - 1 ∧ s.pc.toNat % 2 = 0) →
    ∃ t, step s = .next t ∧
      t = { s with diag := t.diag, runState := .halted, result := .fatal .invalidProgramCounter } ∧
      ∀ m, ∃ u, step { s with mem := m } = .next u ∧ u = { t with mem := m }) ∧
  (∀ pc : Word, pcValid pc = true ↔ pc.toNat % 2 = 0 ∧ pc.toNat ≤ 0xFFE)

/-- A Halted machine has no step (R96 and K15, the spec's decision D10): the model's stop has the name
`haltedNoStep`. -/
def Obligations.HaltedHasNoStep : Prop :=
  ∀ s : State, s.runState = .halted → step s = .fault .haltedNoStep

/-- The fetch reads two bytes big-endian without translation, and refuses exactly the addresses the program-counter
check refuses (R52, with the inference the spec draws there). -/
def Obligations.FetchIsBigEndianOrAddressFault : Prop :=
  ∀ (s : State) (a : Word),
    ((a.toNat % 2 = 1 ∨ a.toNat + 1 ≥ 4096) → s.fetchWord a = .error .addressFault) ∧
    (¬ (a.toNat % 2 = 1 ∨ a.toNat + 1 ≥ 4096) →
      s.fetchWord a = .ok (s.byteAt a.toNat ++ s.byteAt (a.toNat + 1))) ∧
    (pcValid a = false ↔ (a.toNat % 2 = 1 ∨ a.toNat + 1 ≥ 4096))

/-- No step ends with `AddressFault` or `SpriteTooTall` (inferences of the spec: R53, R141). -/
def Obligations.UnreachableResults : Prop :=
  ∀ s t : State, step s = .next t →
    t.result ≠ .fatal .addressFault ∧ t.result ≠ .recoverable .spriteTooTall

/-- Every instruction but JP, CALL and RET, its reads permitted (R37), completes and leaves `pc` 2 past its address, at
`0x0FFE` too (R99, an inference of the spec). -/
def Obligations.PcAdvancesByTwo : Prop :=
  ∀ s : State, s.CanFetch → (decode (s.wordAt s.pc.toNat)).writesPc = false →
    s.Readable (decode (s.wordAt s.pc.toNat)) →
    ∃ t, step s = .next t ∧ t.pc = s.pc + 2#16 ∧ t.pc.toNat = s.pc.toNat + 2 ∧ t.result = .ok

/-- In a state of the invariant nothing stops the machine but Halted and, where `UNWRITTEN_READ` is `fault`, the stop
of R37. -/
def Obligations.LiveMachineAlwaysSteps : Prop :=
  ∀ s : State, s.Inv → s.runState ≠ .halted →
    (s.params.unwrittenRead = .zero → ∃ t, step s = .next t) ∧
    ((∃ t, step s = .next t) ∨ step s = .fault .unwrittenRead)

/-- `UNWRITTEN_READ` (R37, the spec's decision D4). With `zero` every read is permitted; with `fault` a register is read
only if its bit is set. Reading one that is not, by ADD, or by DRW (`I` where a row is drawn), ends the run with
`UnwrittenRead`, and nothing else does. Every bit is clear at reset, and an instruction that completes sets those of the
registers it writes and clears none. -/
def Obligations.UnwrittenReadPolicy : Prop :=
  (∀ (i : Instr) (s : State), s.params.unwrittenRead = .zero → s.Readable i) ∧
  (∀ (j : Nibble) (s : State), s.params.unwrittenRead = .fault →
    (s.regReadable j = true ↔ s.regWritten[j.toNat]? = some true) ∧ s.indexReadable = s.indexWritten) ∧
  (∀ (i : Instr) (s : State), exec i s = .fault .unwrittenRead ↔ ¬ s.Readable i) ∧
  (∀ (p : Config.Params) (j : Nibble),
    (State.resetWith p).regWritten[j.toNat]? = some false ∧ (State.resetWith p).indexWritten = false) ∧
  (∀ (i : Instr) (s t : State), exec i s = .next t →
    (∀ j : Nibble, t.regWritten[j.toNat]? = some true ↔
      j ∈ i.destRegs ∨ s.regWritten[j.toNat]? = some true) ∧
    (t.indexWritten = true ↔ (∃ nnn, i = .ldIndex nnn) ∨ s.indexWritten = true))

/-! ## Clear screen, return, jump, call -/

/-- CLS (R110): the encoding; every cell off and nothing else changed, the same for every `X`; idempotent. -/
def Obligations.ClsTurnsEveryCellOff : Prop :=
  (∀ w : Word, w &&& 0xF0FF#16 = 0x00E0#16 → decode w = .cls (w.extractLsb' 8 4)) ∧
  (∀ s : State, ∃ t, (∀ g : Nibble, exec (.cls g) s = .next t) ∧
    t = { s with fb := t.fb, result := .ok } ∧ (∀ row col, t.pixel row col = false) ∧
    ∀ g : Nibble, ∃ u, exec (.cls g) t = .next u ∧ u.fb = t.fb)

/-- RET on a stack that is not empty (R111; slots and depth are the spec's decision D6): `pc` takes the top of the
stack, `sp` drops by 1, and nothing else changes, the popped slot included. -/
def Obligations.RetPopsTopOfStack : Prop :=
  ∀ (g : Nibble) (s : State), 1 ≤ s.sp.toNat → s.sp.toNat ≤ 16 →
    ∃ target, s.slot s.sp.toNat = some target ∧ (s.sp - 1).toNat = s.sp.toNat - 1 ∧
      exec (.ret g) s = .next { s with pc := target, sp := s.sp - 1, result := .ok }

/-- RET on an empty stack (R111, R185; no write by the handler is the spec's decision D9): fatal StackUnderflow with
the whole word recorded, the `pc` advance kept. -/
def Obligations.RetOnEmptyStackUnderflows : Prop :=
  ∀ (g : Nibble) (s : State), s.sp = 0#8 →
    exec (.ret g) s = .next { s with
      diag := s.diag ++ [⟨.fatal .stackUnderflow, s.pc - 2#16, some (0x0#4 ++ (g ++ 0xEE#8 : BitVec 12))⟩]
      runState := .halted
      result := .fatal .stackUnderflow }

/-- JP (R112): the encoding, the effect, the fault of the next step after an odd target or `0xFFF`, and a jump to
its own address, which loops without changing any state. -/
def Obligations.JumpSetsPc : Prop :=
  (∀ w : Word, w &&& 0xF000#16 = 0x1000#16 → decode w = .jp (w.extractLsb' 0 12)) ∧
  (∀ (nnn : Addr12) (s : State), exec (.jp nnn) s = .next { s with pc := nnn.setWidth 16, result := .ok }) ∧
  (∀ (nnn : Addr12) (s t : State), s.runState ≠ .halted → (nnn.toNat % 2 = 1 ∨ nnn = 0xFFF#12) →
    exec (.jp nnn) s = .next t → ∃ u, step t = .next u ∧
      u = { t with diag := u.diag, runState := .halted, result := .fatal .invalidProgramCounter }) ∧
  (∀ s : State, s.CanFetch → s.wordAt s.pc.toNat = 0x1000#16 ||| s.pc → step s = .next { s with result := .ok })

/-- CALL with room on the stack (R113; slot numbering is the spec's decision D6): the advanced `pc` on the new top
slot, `sp` one more, `pc` at the target, every other slot and all else unchanged. -/
def Obligations.CallPushesReturnAddress : Prop :=
  ∀ (nnn : Addr12) (s : State), s.sp.toNat < 16 →
    ∃ t, exec (.call nnn) s = .next t ∧
      t = { s with sp := s.sp + 1, stack := t.stack, pc := nnn.setWidth 16, result := .ok } ∧
      t.sp.toNat = s.sp.toNat + 1 ∧ t.slot (s.sp.toNat + 1) = some s.pc ∧
      ∀ k, k ≠ s.sp.toNat + 1 → t.slot k = s.slot k

/-- CALL on a full stack (R113, R184; no write by the handler is the spec's decision D9): fatal StackOverflow, `sp`
and the stack unchanged, the `pc` advance kept. -/
def Obligations.CallOnFullStackOverflows : Prop :=
  ∀ (nnn : Addr12) (s : State), s.sp.toNat = 16 →
    exec (.call nnn) s = .next { s with
      diag := s.diag ++ [⟨.fatal .stackOverflow, s.pc - 2#16, some (0x2#4 ++ nnn)⟩]
      runState := .halted
      result := .fatal .stackOverflow }

/-- A CALL followed by a RET as the first instruction of the subroutine: `pc` after the CALL, `sp` as before it, and
the popped slot still holding that address (R114, an inference of the spec). The RET runs on the advanced `pc`. -/
def Obligations.CallThenReturnRestores : Prop :=
  ∀ (nnn : Addr12) (g : Nibble) (s : State), s.sp.toNat < 16 →
    ∃ t u, exec (.call nnn) s = .next t ∧ exec (.ret g) { t with pc := t.pc + 2#16 } = .next u ∧
      u.pc = s.pc ∧ u.sp = s.sp ∧ u.slot (s.sp.toNat + 1) = some s.pc

/-- In a state whose `sp` is above 16, which no run reaches, CALL and RET address a slot that does not exist and stop
by name (model's choice, log 9). -/
def Obligations.NoSlotAboveDepth : Prop :=
  ∀ (nnn : Addr12) (g : Nibble) (s : State), 16 < s.sp.toNat →
    exec (.call nnn) s = .fault .noStackSlot ∧ exec (.ret g) s = .fault .noStackSlot

/-! ## Register instructions -/

/-- LD Vx, NN (R130): the encoding and the effect; register 15 is an ordinary destination. (The model-only bit of the
register, R37, is said by `UnwrittenReadPolicy`.) -/
def Obligations.LoadImmediateSetsRegister : Prop :=
  (∀ w : Word, w &&& 0xF000#16 = 0x6000#16 → decode w = .ldImm (w.extractLsb' 8 4) (w.extractLsb' 0 8)) ∧
  (∀ (x : Nibble) (nn : Byte) (s : State), ∃ t, exec (.ldImm x nn) s = .next t ∧
    t = { s with regs := t.regs, regWritten := t.regWritten, result := .ok } ∧ t.reg x = nn ∧ ∀ j, j ≠ x → t.reg j = s.reg j)

/-- ADD Vx, NN (R131): the encoding, the sum modulo 256, no carry in `VF` or anywhere. Its read of `x[X]` is permitted
(always, where `UNWRITTEN_READ` is `zero`; `UnwrittenReadPolicy` says what happens elsewhere). -/
def Obligations.AddImmediateWraps : Prop :=
  (∀ w : Word, w &&& 0xF000#16 = 0x7000#16 → decode w = .addImm (w.extractLsb' 8 4) (w.extractLsb' 0 8)) ∧
  (∀ (x : Nibble) (nn : Byte) (s : State), s.Readable (.addImm x nn) → ∃ t, exec (.addImm x nn) s = .next t ∧
    t = { s with regs := t.regs, regWritten := t.regWritten, result := .ok } ∧
    (t.reg x).toNat = ((s.reg x).toNat + nn.toNat) % 256 ∧ ∀ j, j ≠ x → t.reg j = s.reg j)

/-- LD I, NNN (R132): the encoding and the effect; the upper 4 bits of `I` become 0. After `NNN = 0xFFF` a sprite's
bytes are those at `0xFFF`, `0x000`, `0x001` and so on, since data addresses wrap (the spec's decision D14). -/
def Obligations.LoadIndexSetsI : Prop :=
  (∀ w : Word, w &&& 0xF000#16 = 0xA000#16 → decode w = .ldIndex (w.extractLsb' 0 12)) ∧
  (∀ (nnn : Addr12) (s : State),
    exec (.ldIndex nnn) s = .next { s with
      index := nnn.setWidth 16, indexWritten := true, result := .ok } ∧
    (nnn.setWidth 16 : Word).toNat = nnn.toNat) ∧
  (∀ (s t : State), exec (.ldIndex 0xFFF#12) s = .next t →
    ∀ r, t.memRead (t.index.toNat + r) = s.byteAt ((0xFFF + r) % 4096))

/-! ## Draw -/

/-- DRW completes wherever its reads are permitted (everywhere, where `UNWRITTEN_READ` is `zero`) and changes only framebuffer cells and `VF`; with height 0, or with a sprite of
zero bytes, only `VF`, which becomes 0; what it writes depends on nothing but `x[X]`, `x[Y]`, `I`, memory, the
framebuffer and the parameters (R149). -/
def Obligations.DrawChangesDisplayAndFlagOnly : Prop :=
  (∀ (x y n : Nibble) (s : State), s.Readable (.drw x y n) → ∃ t, exec (.drw x y n) s = .next t ∧
    t = { s with fb := t.fb, regs := t.regs, regWritten := t.regWritten, result := .ok } ∧ (∀ i, i ≠ 0xF#4 → t.reg i = s.reg i) ∧
    (n = 0#4 → t.fb = s.fb ∧ t.reg 0xF#4 = 0#8) ∧
    (Framebuffer.wf s.params s.fb → (∀ r, r < n.toNat → s.memRead (s.index.toNat + r) = 0#8) →
      t.fb = s.fb ∧ t.reg 0xF#4 = 0#8)) ∧
  (∀ (x y n : Nibble) (s s' t t' : State), s'.reg x = s.reg x → s'.reg y = s.reg y → s'.index = s.index →
    s'.mem = s.mem → s'.fb = s.fb → s'.params = s.params →
    exec (.drw x y n) s = .next t → exec (.drw x y n) s' = .next t' → t'.fb = t.fb ∧ t'.reg 0xF#4 = t.reg 0xF#4)

/-- DRW against the landings of its lit pixels: each cell of the display is toggled once for every lit pixel placed
on it (R142 to R147; the order when two land on one cell, R148, is the spec's inference). -/
def Obligations.DrawXorsEveryCell : Prop :=
  ∀ (x y n : Nibble) (s : State), s.Inv → s.Readable (.drw x y n) → ∃ t, exec (.drw x y n) s = .next t ∧
    ∀ row col, row < s.params.dispH → col < s.params.dispW →
      t.pixel row col = (s.pixel row col ^^ ((s.landings x y n.toNat).count (row, col) % 2 == 1))

/-- The collision flag of DRW: 1 exactly when some lit pixel, in the order of placing, lands on a cell that is lit at
that moment, and 0 otherwise (R143, R147, R148). -/
def Obligations.DrawCollisionFlag : Prop :=
  ∀ (x y n : Nibble) (s : State), s.Inv → s.Readable (.drw x y n) → ∃ t, exec (.drw x y n) s = .next t ∧
    ((∃ before c after, s.landings x y n.toNat = before ++ c :: after ∧
        (s.pixel c.1 c.2 ^^ (before.count c % 2 == 1)) = true) → t.reg 0xF#4 = 1#8) ∧
    ((¬ ∃ before c after, s.landings x y n.toNat = before ++ c :: after ∧
        (s.pixel c.1 c.2 ^^ (before.count c % 2 == 1)) = true) → t.reg 0xF#4 = 0#8)

/-- No two pixels of one draw land on one cell, unless wrap mode meets a display narrower than 8 or lower than the
sprite (R148, an inference of the spec). -/
def Obligations.LandingsDoNotOverlap : Prop :=
  ∀ (x y n : Nibble) (s : State), s.params.wf →
    (s.params.wrapMode = false ∨ (8 ≤ s.params.dispW ∧ n.toNat ≤ s.params.dispH)) →
    (s.landings x y n.toNat).Nodup

/-- Drawing the same sprite twice with no change between restores the display; with no overlap the second draw sets
`VF` exactly when some lit pixel was placed on a cell that was off (R150, an inference of the spec). The second draw
runs on any `pc`. -/
def Obligations.DrawTwiceRestoresDisplay : Prop :=
  ∀ (x y n : Nibble) (s t : State) (pc' : Word), s.Inv → exec (.drw x y n) s = .next t →
    t.reg x = s.reg x → t.reg y = s.reg y →
    ∃ u, exec (.drw x y n) { t with pc := pc' } = .next u ∧ u.fb = s.fb ∧
      ((s.landings x y n.toNat).Nodup →
        ((∃ c ∈ s.landings x y n.toNat, s.pixel c.1 c.2 = false) → u.reg 0xF#4 = 1#8) ∧
        ((∀ c ∈ s.landings x y n.toNat, s.pixel c.1 c.2 = true) → u.reg 0xF#4 = 0#8))

/-- Wrap mode on, origin in the last column and row: pixel 1 paints column 0 and row 1 paints row 0 (R151, an
inference of the spec; no two pixels overlap). -/
def Obligations.DrawWrapsAtCorner : Prop :=
  ∀ (x y n : Nibble) (s : State), s.Inv → s.Readable (.drw x y n) → s.params.wrapMode = true → 8 ≤ s.params.dispW → 2 ≤ n.toNat →
    n.toNat ≤ s.params.dispH → s.origin x y = (s.params.dispH - 1, s.params.dispW - 1) →
    ∃ t, exec (.drw x y n) s = .next t ∧
      t.pixel (s.params.dispH - 1) (s.params.dispW - 1) =
        (s.pixel (s.params.dispH - 1) (s.params.dispW - 1) ^^ s.lit 0 0) ∧
      t.pixel (s.params.dispH - 1) 0 = (s.pixel (s.params.dispH - 1) 0 ^^ s.lit 0 1) ∧
      t.pixel 0 (s.params.dispW - 1) = (s.pixel 0 (s.params.dispW - 1) ^^ s.lit 1 0) ∧
      t.pixel 0 0 = (s.pixel 0 0 ^^ s.lit 1 1)

/-- Wrap mode off: a cell inside the sprite's box is XORed with its pixel, and every other cell of the display, the
cells that a wrap would reach among them, is as before (R152, an inference of the spec). -/
def Obligations.DrawClipsAtEdges : Prop :=
  ∀ (x y n : Nibble) (s : State), s.Inv → s.Readable (.drw x y n) → s.params.wrapMode = false →
    ∃ t, exec (.drw x y n) s = .next t ∧
      ∀ row col, row < s.params.dispH → col < s.params.dispW →
        t.pixel row col =
          if (s.origin x y).1 ≤ row ∧ row < (s.origin x y).1 + n.toNat ∧
             (s.origin x y).2 ≤ col ∧ col < (s.origin x y).2 + 8
          then s.pixel row col ^^ s.lit (row - (s.origin x y).1) (col - (s.origin x y).2)
          else s.pixel row col

/-- The height check of the draw contract: above 15 the draw is aborted with its event and result, the display, `VF`
and the run-state unchanged; no DRW instruction can raise it (R141, R188; the event is the spec's decision D13). -/
def Obligations.TallSpriteIsRecoverable : Prop :=
  (∀ (x y : Nibble) (height : Nat) (word : Word) (s : State), 15 < height →
    drawSprite x y height word s = .next { s with
      diag := s.diag ++ [⟨.recoverable .spriteTooTall, s.pc - 2#16, some word⟩]
      result := .recoverable .spriteTooTall }) ∧
  (∀ (x y n : Nibble) (s t : State), exec (.drw x y n) s = .next t → t.result = .ok ∧ t.diag = s.diag)

/-! ## Unimplemented words -/

/-- Each unimplemented instruction completes: its event, with the fetch address and its word, result `Ok`, and no
other change (R160, constructor by constructor). -/
def Obligations.UnimplementedInstructionsComplete : Prop :=
  ∀ s : State,
    (∀ nnn, exec (.unimpl0 nnn) s = .next { s with
      diag := s.diag ++ [⟨.unimplemented, s.pc - 2#16, some (0x0#4 ++ nnn)⟩], result := .ok }) ∧
    (∀ x y n : Nibble, exec (.unimpl3 x y n) s = .next { s with
      diag := s.diag ++ [⟨.unimplemented, s.pc - 2#16, some (encode (.unimpl3 x y n))⟩], result := .ok }) ∧
    (∀ x y n : Nibble, exec (.unimpl4 x y n) s = .next { s with
      diag := s.diag ++ [⟨.unimplemented, s.pc - 2#16, some (encode (.unimpl4 x y n))⟩], result := .ok }) ∧
    (∀ x y n : Nibble, exec (.unimpl5 x y n) s = .next { s with
      diag := s.diag ++ [⟨.unimplemented, s.pc - 2#16, some (encode (.unimpl5 x y n))⟩], result := .ok }) ∧
    (∀ x y n : Nibble, exec (.unimpl8 x y n) s = .next { s with
      diag := s.diag ++ [⟨.unimplemented, s.pc - 2#16, some (encode (.unimpl8 x y n))⟩], result := .ok }) ∧
    (∀ x y n : Nibble, exec (.unimpl9 x y n) s = .next { s with
      diag := s.diag ++ [⟨.unimplemented, s.pc - 2#16, some (encode (.unimpl9 x y n))⟩], result := .ok }) ∧
    (∀ x y n : Nibble, exec (.unimplB x y n) s = .next { s with
      diag := s.diag ++ [⟨.unimplemented, s.pc - 2#16, some (encode (.unimplB x y n))⟩], result := .ok }) ∧
    (∀ x y n : Nibble, exec (.unimplC x y n) s = .next { s with
      diag := s.diag ++ [⟨.unimplemented, s.pc - 2#16, some (encode (.unimplC x y n))⟩], result := .ok }) ∧
    (∀ x y n : Nibble, exec (.unimplE x y n) s = .next { s with
      diag := s.diag ++ [⟨.unimplemented, s.pc - 2#16, some (encode (.unimplE x y n))⟩], result := .ok }) ∧
    (∀ x y n : Nibble, exec (.unimplF x y n) s = .next { s with
      diag := s.diag ++ [⟨.unimplemented, s.pc - 2#16, some (encode (.unimplF x y n))⟩], result := .ok })

/-- By the words of each family (R161 to R170): every such word decodes to an instruction that emits the event with
that very word, ends `Ok`, and changes nothing else: no skip, no register, no memory, no timer. -/
def Obligations.UnimplementedWordsAreNoOps : Prop :=
  ∀ (w : Word) (s : State),
    (w.toNat / 4096 ∈ [3, 4, 5, 8, 9, 0xB, 0xC, 0xE, 0xF] ∨
      (w.toNat / 4096 = 0 ∧ w.toNat % 256 ≠ 0xE0 ∧ w.toNat % 256 ≠ 0xEE)) →
    exec (decode w) s = .next { s with
      diag := s.diag ++ [⟨.unimplemented, s.pc - 2#16, some w⟩]
      result := .ok }

/-- The common behaviour (R160): every word that no implemented row of R74 matches is a no-op with its event, and `k`
such words in a row advance `pc` by `2k`, add `k` events, and change nothing else. -/
def Obligations.UnimplementedRunIsNoOps : Prop :=
  (∀ (w : Word) (s : State), w &&& 0xF0FF#16 ≠ 0x00E0#16 → w &&& 0xF0FF#16 ≠ 0x00EE#16 →
    w &&& 0xF000#16 ∉ [0x1000#16, 0x2000#16, 0x6000#16, 0x7000#16, 0xA000#16, 0xD000#16] →
    (decode w).isUnimplemented = true ∧ exec (decode w) s = .next { s with
      diag := s.diag ++ [⟨.unimplemented, s.pc - 2#16, some w⟩]
      result := .ok }) ∧
  (∀ (k : Nat) (s : State), s.runState ≠ .halted → s.pc.toNat % 2 = 0 → s.pc.toNat + 2 * (k + 1) ≤ 4096 →
    (∀ j, j < k + 1 → (decode (s.wordAt (s.pc.toNat + 2 * j))).isUnimplemented = true) →
    Sys2Proof.core.run (k + 1) s = .next { s with
      pc := s.pc + BitVec.ofNat 16 (2 * (k + 1))
      diag := s.diag ++ (List.range (k + 1)).map fun j =>
        (⟨.unimplemented, s.pc + BitVec.ofNat 16 (2 * j), some (s.wordAt (s.pc.toNat + 2 * j))⟩ : Event)
      result := .ok })

/-! ## Frames and machine-wide rules -/

/-- The frame of every instruction that completes: a handler writes only what its row of R94 names. Memory, timers,
key port and parameters never; general registers but the destination never, nor their bits; `I` only by LD I; the stack only by CALL
(one slot) and `sp` only by CALL and RET; the display only by CLS and DRW. -/
def Obligations.InstructionFrame : Prop :=
  ∀ (i : Instr) (s t : State), exec i s = .next t →
    SameHostSide s t ∧ SameMemory s t ∧ SameRegsBut i.destRegs s t ∧
    ((∀ nnn, i ≠ .ldIndex nnn) → t.index = s.index ∧ t.indexWritten = s.indexWritten) ∧
    (∀ j, j ∉ i.destRegs → t.regWritten[j.toNat]? = s.regWritten[j.toNat]?) ∧
    ((∀ g, i ≠ .cls g) → (∀ x y n, i ≠ .drw x y n) → SameDisplay s t) ∧
    ((∀ nnn, i ≠ .call nnn) → ∀ k, t.slot k = s.slot k) ∧
    (∀ k, k ≠ s.sp.toNat + 1 → t.slot k = s.slot k) ∧
    ((∀ nnn, i ≠ .call nnn) → (∀ g, i ≠ .ret g) → t.sp = s.sp) ∧
    (i.writesPc = false → t.pc = s.pc) ∧
    (i.isUnimplemented = false → t.result = .ok → t.diag = s.diag) ∧
    (t.result = .ok → t.runState = s.runState)

/-- The state invariant is kept by every step: canonical memory and framebuffer inside their ranges, `sp` a depth,
`I` a 12-bit address (R22), every slot a return address (the spec's decision D7). -/
def Obligations.StepKeepsInvariant : Prop :=
  ∀ s t : State, s.Inv → step s = .next t → t.Inv

/-- The invariant holds after reset, for every legal choice of the OPEN parameters and for the model's instance. -/
def Obligations.ResetHasInvariant : Prop :=
  (∀ p : Config.Params, p.wf → (State.resetWith p).Inv) ∧ State.reset.Inv

/-- `pc` stays in the address range, or at an entry point outside it: what a step can leave in `pc` is at most
`0x1000` (R92, R182). -/
def Obligations.PcStaysInRange : Prop :=
  ∀ s t : State, s.Inv → (s.pc.toNat ≤ 0x1000 ∨ s.pc = s.params.entry) → step s = .next t →
    (t.pc.toNat ≤ 0x1000 ∨ t.pc = t.params.entry)

/-- What reset leaves (R36, R220). The zeroed memory is the source's; every other value is a decision of the spec (D3,
D4, D5, D11, D13). The bookkeeping bits are clear (R37). -/
def Obligations.ResetLeaves : Prop :=
  ∀ p : Config.Params,
    (∀ a, (State.resetWith p).byteAt a = 0#8) ∧ (∀ i, (State.resetWith p).reg i = 0#8) ∧
    (State.resetWith p).index = 0#16 ∧ (State.resetWith p).pc = p.entry ∧ (State.resetWith p).sp = 0#8 ∧
    (∀ k, 1 ≤ k → k ≤ 16 → (State.resetWith p).slot k = some 0#16) ∧
    (State.resetWith p).dt = 0#8 ∧ (State.resetWith p).st = 0#8 ∧
    (∀ row col, (State.resetWith p).pixel row col = false) ∧
    (State.resetWith p).runState = .running ∧ (State.resetWith p).diag = [] ∧
    (∀ i : Nibble, (State.resetWith p).regWritten[i.toNat]? = some false) ∧ (State.resetWith p).indexWritten = false ∧
    (State.resetWith p).params = p

/-- No step writes memory, a timer, the key port or a parameter (R8, R24, R54). -/
def Obligations.StepWritesNothingOfTheHost : Prop :=
  ∀ s t : State, step s = .next t → SameHostSide s t ∧ SameMemory s t

/-- A step halts the machine exactly when its result is fatal, and otherwise leaves the run-state as it was (R186,
R187; the core as the writer of Halted is the spec's decision D10). -/
def Obligations.HaltsExactlyOnFatal : Prop :=
  ∀ s t : State, step s = .next t →
    (t.runState = .halted ↔ ∃ k, t.result = .fatal k) ∧ ((∀ k, t.result ≠ .fatal k) → t.runState = s.runState)

/-- Every fatal fault is precise (R186, R191, inferences of the spec; D9): the step changed nothing but the `pc`
advance, made for faults after the fetch only, the event, the run-state and the result. -/
def Obligations.FatalFaultsArePrecise : Prop :=
  ∀ (s t : State) (k : FatalKind), step s = .next t → t.result = .fatal k →
    t = { s with
      pc := if k = .invalidProgramCounter then s.pc else s.pc + 2#16
      diag := t.diag
      runState := .halted
      result := .fatal k }

/-- The diagnostics output is append-only, and a step appends at most one event, which names the fetch address and
the fetched word, or `pc` and no word (R33, R181; contents by the spec's decision D13). -/
def Obligations.EventOfEachStep : Prop :=
  ∀ s t : State, step s = .next t →
    (t.result = .ok ∧ (decode (s.wordAt s.pc.toNat)).isUnimplemented = false ∧ t.diag = s.diag) ∨
    (t.result = .ok ∧ (decode (s.wordAt s.pc.toNat)).isUnimplemented = true ∧
      t.diag = s.diag ++ [⟨.unimplemented, s.pc, some (s.wordAt s.pc.toNat)⟩]) ∨
    (t.result = .fatal .invalidProgramCounter ∧
      t.diag = s.diag ++ [⟨.fatal .invalidProgramCounter, s.pc, none⟩]) ∨
    (∃ k, (k = .stackOverflow ∨ k = .stackUnderflow) ∧ t.result = .fatal k ∧
      t.diag = s.diag ++ [⟨.fatal k, s.pc, some (s.wordAt s.pc.toNat)⟩])

/-- No step reads the key snapshot or a timer: other values there change nothing else (R34, R195, R196; the key port
in the state is log 3). -/
def Obligations.KeysAndTimersAreNotRead : Prop :=
  ∀ (s : State) (keys : Vector Bool 16) (dt st : Byte),
    step { s with keys := keys, dt := dt, st := st } =
      mapNext (fun t => { t with keys := keys, dt := dt, st := st }) (step s)

/-- The core never reads the diagnostics output (R33, R198): earlier events are carried along and change nothing. -/
def Obligations.DiagnosticsAreNotRead : Prop :=
  ∀ (s : State) (earlier : List Event),
    step { s with diag := earlier ++ s.diag } = mapNext (fun t => { t with diag := earlier ++ t.diag }) (step s)

/-- A step runs identically in Running, Paused and Stepping (R96, the spec's decision D11). -/
def Obligations.RunStateReadOnlyForHalted : Prop :=
  ∀ (s : State) (r : RunState), s.runState ≠ .halted → r ≠ .halted →
    step { s with runState := r } =
      mapNext (fun t => { t with runState := if t.runState = .halted then .halted else r }) (step s)

/-! ## Memory and the host -/

/-- A byte write and a byte read go through the translator (R50, R51, R54; the wrap of data addresses is the spec's
decision D14): the read gives the byte written at the same address modulo 4096, and the old byte elsewhere. -/
def Obligations.ReadAfterHostWrite : Prop :=
  ∀ (s : State) (a b : Nat) (v : Byte), Memory.wf s.mem →
    (s.memWrite a v).memRead b = if a % 4096 = b % 4096 then v else s.memRead b

/-- The loader copies an image that fits verbatim to `ENTRY` and leaves every other byte and all else as it was
(R222; the move table R201 is the spec's decision D15). -/
def Obligations.LoadPlacesImage : Prop :=
  ∀ (m : Rig) (image : List Byte), m.started = false → Memory.wf m.core.mem →
    m.core.params.entry.toNat + image.length ≤ 4096 →
    ∃ m', drive (.load image) m = .next m' ∧ m'.started = false ∧
      m'.core = { m.core with mem := m'.core.mem } ∧
      (∀ j (h : j < image.length), m'.core.byteAt (m.core.params.entry.toNat + j) = image[j]) ∧
      (∀ a, (a < m.core.params.entry.toNat ∨ m.core.params.entry.toNat + image.length ≤ a) →
        m'.core.byteAt a = m.core.byteAt a)

/-- An image that does not fit, and any memory write after the first step, is no move (R201, R222; D15, D25): every step
that is taken makes the rig started, and no move but a reset makes it fresh again. -/
def Obligations.HostMemoryWritesRefused : Prop :=
  (∀ (m : Rig) (image : List Byte), m.started = false → 4096 < m.core.params.entry.toNat + image.length →
    drive (.load image) m = .refused .imageTooLong) ∧
  (∀ (m : Rig) (image : List Byte) (a : Word) (v : Byte), m.started = true →
    drive (.load image) m = .refused .memoryAfterStart ∧ drive (.writeByte a v) m = .refused .memoryAfterStart) ∧
  (∀ (m m' : Rig) (keys : Vector Bool 16), drive (.step keys) m = .next m' → m'.started = true) ∧
  (∀ (move : HostMove) (m m' : Rig), m.started = true → move ≠ .reset → drive move m = .next m' → m'.started = true)

/-- The host writes the run-state between steps (R201), along the transitions of R187 and no other; it leaves Stepping
for Paused only after the step it invoked in Stepping; Halted is terminal (entry into Stepping is the spec's decision
D11). -/
def Obligations.HostRunStateTransitions : Prop :=
  ∀ (m : Rig) (r : RunState),
    (m.started = false → drive (.setRunState r) m = .refused .notBetweenSteps) ∧
    (m.started = true →
      (m.core.runState, r) ∈ ([(.running, .paused), (.paused, .running), (.paused, .stepping), (.running, .halted),
        (.paused, .halted), (.stepping, .halted), (.halted, .halted)] : List (RunState × RunState)) ∨
        (m.core.runState = .stepping ∧ r = .paused ∧ m.stepped = true) →
      drive (.setRunState r) m = .next { m with core := { m.core with runState := r }, stepped := false }) ∧
    (m.started = true →
      ¬ ((m.core.runState, r) ∈ ([(.running, .paused), (.paused, .running), (.paused, .stepping), (.running, .halted),
        (.paused, .halted), (.stepping, .halted), (.halted, .halted)] : List (RunState × RunState)) ∨
        (m.core.runState = .stepping ∧ r = .paused ∧ m.stepped = true)) →
      drive (.setRunState r) m = .refused .illegalTransition)

/-- Between steps the host writes no general register, `I`, `pc`, `sp`, stack slot, framebuffer cell, event or
parameter, and no memory after the first step (R201, the spec's decision D15). -/
def Obligations.HostFrame : Prop :=
  ∀ (move : HostMove) (m m' : Rig), drive move m = .next m' → move ≠ .reset → (∀ k, move ≠ .step k) →
    m'.core.regs = m.core.regs ∧ m'.core.index = m.core.index ∧ m'.core.pc = m.core.pc ∧ m'.core.sp = m.core.sp ∧
    m'.core.stack = m.core.stack ∧ m'.core.fb = m.core.fb ∧ m'.core.diag = m.core.diag ∧
    m'.core.params = m.core.params ∧ m'.core.result = m.core.result ∧ m'.started = m.started ∧
    (m.started = true → m'.core.mem = m.core.mem)

/-- Every move of the host and every step it asks for keep the invariant: it holds in every state a host can bring
the machine to. -/
def Obligations.EveryMoveKeepsInvariant : Prop :=
  ∀ (move : HostMove) (m m' : Rig), m.core.Inv → drive move m = .next m' → m'.core.Inv

/-- A second reset is a new construction with the same parameters (R220, the spec's decision D25); a timer write between
steps sets its timer and nothing else, and one before the first step is no move (R195, R201). -/
def Obligations.ResetAndTimerMoves : Prop :=
  ∀ m : Rig,
    drive .reset m = .next { core := State.resetWith m.core.params, started := false, stepped := false } ∧
    (m.started = true → ∀ v,
      drive (.writeTimer .delay v) m = .next { m with core := { m.core with dt := v } } ∧
      drive (.writeTimer .sound v) m = .next { m with core := { m.core with st := v } }) ∧
    (m.started = false → ∀ which v, drive (.writeTimer which v) m = .refused .notBetweenSteps)

/-- The step move runs one step with the host's key snapshot (R199, R201), and a stop of the step is a stop of the move;
a byte write before the first step is `MemWrite` and nothing else (R54, R200). -/
def Obligations.StepAndByteMoves : Prop :=
  (∀ (m : Rig) (keys : Vector Bool 16) (t : State), step { m.core with keys := keys } = .next t →
    t.keys = keys ∧ drive (.step keys) m = .next { core := t, started := true, stepped := true }) ∧
  (∀ (m : Rig) (keys : Vector Bool 16) (f : Fault), step { m.core with keys := keys } = .fault f →
    drive (.step keys) m = .fault f) ∧
  (∀ (m : Rig) (keys : Vector Bool 16) (r : HostRefusal), drive (.step keys) m ≠ .refused r) ∧
  (∀ (m : Rig) (a : Word) (v : Byte), m.started = false →
    drive (.writeByte a v) m = .next { m with core := m.core.memWrite a.toNat v })

/-- The runner of R231. It ends where a step returns a fatal result or the host writes Halted, with that final state,
which is Halted; and where the fuel runs out, with none. Any other move that answers a next state, a Paused machine's
among them, goes on with the next. An end does not depend on the fuel left. The model's choice (log 13): the fuel counts
the host's moves; a stop of the model (`UnwrittenRead` of a legal step among them, R37) ends the run as `stopped`, and
an illegal move as `noMove`. -/
def Obligations.RunnerStops : Prop :=
  ∀ (host : Nat → HostMove) (j : Nat) (m : Rig),
    runHost host 0 j m = .outOfFuel ∧
    (∀ fuel m', drive (host j) m = .next m' →
      (∀ keys k, host j = .step keys → m'.core.result = .fatal k → runHost host (fuel + 1) j m = .fatal k m') ∧
      (host j = .setRunState .halted → runHost host (fuel + 1) j m = .quit m') ∧
      (host j ≠ .setRunState .halted → (∀ keys k, host j = .step keys → m'.core.result ≠ .fatal k) →
        runHost host (fuel + 1) j m = runHost host fuel (j + 1) m')) ∧
    (∀ fuel f, drive (host j) m = .fault f → runHost host (fuel + 1) j m = .stopped f) ∧
    (∀ fuel r, drive (host j) m = .refused r → runHost host (fuel + 1) j m = .noMove r) ∧
    (∀ fuel k final, runHost host fuel j m = .fatal k final →
      final.core.runState = .halted ∧ final.core.result = .fatal k) ∧
    (∀ fuel final, runHost host fuel j m = .quit final → final.core.runState = .halted) ∧
    (∀ fuel more, runHost host fuel j m ≠ .outOfFuel → runHost host (fuel + more) j m = runHost host fuel j m)

/-- The numeric codes (R30, R181, the spec's decisions D11 and D12). -/
def Obligations.NumericCodes : Prop :=
  StepResult.code .ok = 0 ∧ StepResult.code (.fatal .invalidProgramCounter) = 1 ∧
  StepResult.code (.fatal .addressFault) = 2 ∧ StepResult.code (.fatal .stackOverflow) = 3 ∧
  StepResult.code (.fatal .stackUnderflow) = 4 ∧ StepResult.code (.recoverable .spriteTooTall) = 5 ∧
  EventKind.code .unimplemented = 6 ∧ (∀ k, EventKind.code (.fatal k) = StepResult.code (.fatal k)) ∧
  (∀ k, EventKind.code (.recoverable k) = StepResult.code (.recoverable k)) ∧
  RunState.code .running = 0 ∧ RunState.code .paused = 1 ∧ RunState.code .stepping = 2 ∧ RunState.code .halted = 3

/-- A word placed where the next step fetches is the instruction that step runs, and no other byte changes (the
model's `withFetchWord`, log 10). -/
def Obligations.PlacedWordRunsNext : Prop :=
  ∀ (s : State) (w : Word), s.CanFetch → Memory.wf s.mem →
    step (s.withFetchWord 16 w.toNat) =
      exec (decode w) { s.withFetchWord 16 w.toNat with pc := s.pc + 2#16 } ∧
    (s.withFetchWord 16 w.toNat) = { s with mem := (s.withFetchWord 16 w.toNat).mem } ∧
    ∀ a, a ≠ s.pc.toNat → a ≠ s.pc.toNat + 1 → (s.withFetchWord 16 w.toNat).byteAt a = s.byteAt a
end

