-- ==== Sys2Proof/Laws/Cells.lean ====
section
/-! SUPPORT. The laws of sparse cells: a read after a write, the canonical form is kept, and two canonical lists with
the same reads are the same list. -/

namespace Sys2Proof.Machine

section
variable {β : Type} (d : β)

/-- A key below every listed key reads as the default. -/
theorem Cells.get_of_lt (l : List (Nat × β)) (b : Nat) (h : ∀ p ∈ l, b < p.1) : Cells.get d l b = d := by
  induction l with
  | nil => rfl
  | cons p l ih =>
    have h1 : ¬ p.1 = b := by have := h p (by simp); omega
    simp only [Cells.get, h1, if_false]
    exact ih fun q hq => h q (by simp [hq])

/-- Two canonical lists that read alike at every key are the same list. -/
theorem Cells.ext (l m : List (Nat × β)) (hl : Cells.Canonical d l) (hm : Cells.Canonical d m)
    (h : ∀ a, Cells.get d l a = Cells.get d m a) : l = m := by
  induction l generalizing m with
  | nil =>
    cases m with
    | nil => rfl
    | cons q m =>
      have := h q.1
      simp only [Cells.get, if_true] at this
      exact absurd this.symm (hm.2 q (by simp))
  | cons p l ih =>
    obtain ⟨hk, hl'⟩ := List.pairwise_cons.mp hl.1
    cases m with
    | nil =>
      have := h p.1
      simp only [Cells.get, if_true] at this
      exact absurd this (hl.2 p (by simp))
    | cons q m =>
      obtain ⟨hq, hm'⟩ := List.pairwise_cons.mp hm.1
      have low_l : ∀ b, b < p.1 → Cells.get d (p :: l) b = d := fun b hb =>
        Cells.get_of_lt d _ b fun r hr => by
          rcases List.mem_cons.mp hr with rfl | hr
          · exact hb
          · exact lt_trans hb (hk r hr)
      have low_m : ∀ b, b < q.1 → Cells.get d (q :: m) b = d := fun b hb =>
        Cells.get_of_lt d _ b fun r hr => by
          rcases List.mem_cons.mp hr with rfl | hr
          · exact hb
          · exact lt_trans hb (hq r hr)
      have at_p : Cells.get d (p :: l) p.1 = p.2 := by simp [Cells.get]
      have at_q : Cells.get d (q :: m) q.1 = q.2 := by simp [Cells.get]
      have key : p.1 = q.1 := by
        rcases lt_trichotomy p.1 q.1 with hlt | heq | hgt
        · exact absurd (at_p.symm.trans ((h p.1).trans (low_m p.1 hlt))) (hl.2 p (by simp))
        · exact heq
        · exact absurd (at_q.symm.trans ((h q.1).symm.trans (low_l q.1 hgt))) (hm.2 q (by simp))
      have val : p.2 = q.2 := by rw [← at_p, ← at_q, h p.1, key]
      have hpq : p = q := Prod.ext key val
      subst hpq
      congr 1
      refine ih m ⟨hl', fun r hr => hl.2 r (by simp [hr])⟩ ⟨hm', fun r hr => hm.2 r (by simp [hr])⟩ fun a => ?_
      by_cases ha : p.1 = a
      · rw [Cells.get_of_lt d l a fun r hr => ha ▸ hk r hr, Cells.get_of_lt d m a fun r hr => ha ▸ hq r hr]
      · simpa [Cells.get, ha] using h a

variable [DecidableEq β]

theorem Cells.get_entry (a b : Nat) (v : β) :
    Cells.get d (Cells.entry d a v) b = if a = b then v else d := by
  unfold Cells.entry
  split
  · next h => simp [Cells.get, h]
  · simp [Cells.get]

theorem Cells.get_entry_append (a b : Nat) (v : β) (l : List (Nat × β)) (hv : a = b → v = d → Cells.get d l b = d) :
    Cells.get d (Cells.entry d a v ++ l) b = if a = b then v else Cells.get d l b := by
  unfold Cells.entry
  split
  · next h =>
    by_cases hab : a = b
    · simp [hab, hv hab h, h]
    · simp [hab]
  · simp [Cells.get]

/-- A read after a write: the written value at its key, the old value at every other. -/
theorem Cells.get_put (l : List (Nat × β)) (hl : Cells.Canonical d l) (a b : Nat) (v : β) :
    Cells.get d (Cells.put d l a v) b = if a = b then v else Cells.get d l b := by
  induction l with
  | nil => simpa [Cells.put, Cells.get] using Cells.get_entry d a b v
  | cons p l ih =>
    obtain ⟨k, w⟩ := p
    obtain ⟨hlt, hne⟩ := hl
    obtain ⟨hk, hlt⟩ := List.pairwise_cons.mp hlt
    have ih := ih ⟨hlt, fun q hq => hne q (by simp [hq])⟩
    simp only [Cells.put]
    split
    · next hak =>
      refine Cells.get_entry_append d a b v _ fun hab _ => Cells.get_of_lt d _ b fun q hq => ?_
      rcases List.mem_cons.mp hq with rfl | hq
      · simpa [← hab] using hak
      · have := hk q hq; simp only at this; omega
    · split
      · next _ hak =>
        subst hak
        rw [Cells.get_entry_append d a b v l fun hab _ => Cells.get_of_lt d _ b fun q hq => hab ▸ hk q hq]
        by_cases hab : a = b <;> simp [Cells.get, hab]
      · next h1 h2 =>
        simp only [Cells.get, ih]
        by_cases hkb : k = b
        · have : ¬ a = b := by omega
          simp [hkb, this]
        · simp [hkb]

theorem Cells.mem_entry {a : Nat} {v : β} {p : Nat × β} (h : p ∈ Cells.entry d a v) : p = (a, v) ∧ v ≠ d := by
  unfold Cells.entry at h
  split at h
  · simp at h
  · next hv => exact ⟨by simpa using h, hv⟩

/-- A listed cell after a write is the written one or was listed before. -/
theorem Cells.mem_put (l : List (Nat × β)) {a : Nat} {v : β} {p : Nat × β} (h : p ∈ Cells.put d l a v) :
    (p = (a, v) ∧ v ≠ d) ∨ p ∈ l := by
  induction l with
  | nil => exact .inl (Cells.mem_entry d h)
  | cons q l ih =>
    obtain ⟨k, w⟩ := q
    simp only [Cells.put] at h
    split at h
    · rcases List.mem_append.mp h with h | h
      · exact .inl (Cells.mem_entry d h)
      · exact .inr h
    · split at h
      · rcases List.mem_append.mp h with h | h
        · exact .inl (Cells.mem_entry d h)
        · exact .inr (by simp [h])
      · rcases List.mem_cons.mp h with h | h
        · exact .inr (by simp [h])
        · exact (ih h).imp_right fun h => by simp [h]

theorem Cells.pairwise_entry_append (l : List (Nat × β)) (a : Nat) (v : β)
    (h : l.Pairwise (fun p q => p.1 < q.1)) (ha : ∀ p ∈ l, a < p.1) :
    (Cells.entry d a v ++ l).Pairwise (fun p q => p.1 < q.1) := by
  refine List.pairwise_append.mpr ⟨?_, h, fun p hp q hq => ?_⟩
  · unfold Cells.entry; split <;> simp
  · obtain ⟨rfl, _⟩ := Cells.mem_entry d hp
    exact ha q hq

/-- A write keeps the canonical form. -/
theorem Cells.put_canonical (l : List (Nat × β)) (hl : Cells.Canonical d l) (a : Nat) (v : β) :
    Cells.Canonical d (Cells.put d l a v) := by
  obtain ⟨hlt, hne⟩ := hl
  constructor
  · induction l with
    | nil => simpa [Cells.put] using Cells.pairwise_entry_append d [] a v (by simp) (by simp)
    | cons p l ih =>
      obtain ⟨k, w⟩ := p
      obtain ⟨hk, hlt'⟩ := List.pairwise_cons.mp hlt
      have ih := ih hlt' fun q hq => hne q (by simp [hq])
      simp only [Cells.put]
      split
      · next hak =>
        refine Cells.pairwise_entry_append d _ a v hlt fun q hq => ?_
        rcases List.mem_cons.mp hq with rfl | hq
        · exact hak
        · have := hk q hq; simp only at this; omega
      · split
        · next _ hak => exact Cells.pairwise_entry_append d l a v hlt' fun q hq => hak ▸ hk q hq
        · next h1 h2 =>
          refine List.pairwise_cons.mpr ⟨fun q hq => ?_, ih⟩
          rcases Cells.mem_put d l hq with ⟨rfl, _⟩ | hq
          · show k < a
            omega
          · exact hk q hq
  · intro p hp
    rcases Cells.mem_put d l hp with ⟨rfl, hv⟩ | hp
    · exact hv
    · exact hne p hp

/-- A write below `n` keeps every listed key below `n`. -/
theorem Cells.put_below (n : Nat) (l : List (Nat × β)) (hl : Cells.Below n l) (a : Nat) (v : β) (ha : a < n) :
    Cells.Below n (Cells.put d l a v) := by
  intro p hp
  rcases Cells.mem_put d l hp with ⟨rfl, _⟩ | hp
  · exact ha
  · exact hl p hp

end

end Sys2Proof.Machine
end

