-- ==== Sys2Proof/Laws/State.lean ====
section
/-! SUPPORT. What each named update of the state does to each field: true by definition, used by simp so that no later
proof unfolds a record update. -/

namespace Sys2Proof.Machine

/-! ### setReg -/

@[simp] theorem setReg_regs (s : State) (i : Nibble) (v : Byte) : (s.setReg i v).regs = s.regs.set i.toNat v (by have := i.isLt; omega) := rfl
@[simp] theorem setReg_index (s : State) (i : Nibble) (v : Byte) : (s.setReg i v).index = s.index := rfl
@[simp] theorem setReg_pc (s : State) (i : Nibble) (v : Byte) : (s.setReg i v).pc = s.pc := rfl
@[simp] theorem setReg_sp (s : State) (i : Nibble) (v : Byte) : (s.setReg i v).sp = s.sp := rfl
@[simp] theorem setReg_stack (s : State) (i : Nibble) (v : Byte) : (s.setReg i v).stack = s.stack := rfl
@[simp] theorem setReg_dt (s : State) (i : Nibble) (v : Byte) : (s.setReg i v).dt = s.dt := rfl
@[simp] theorem setReg_st (s : State) (i : Nibble) (v : Byte) : (s.setReg i v).st = s.st := rfl
@[simp] theorem setReg_fb (s : State) (i : Nibble) (v : Byte) : (s.setReg i v).fb = s.fb := rfl
@[simp] theorem setReg_mem (s : State) (i : Nibble) (v : Byte) : (s.setReg i v).mem = s.mem := rfl
@[simp] theorem setReg_runState (s : State) (i : Nibble) (v : Byte) : (s.setReg i v).runState = s.runState := rfl
@[simp] theorem setReg_diag (s : State) (i : Nibble) (v : Byte) : (s.setReg i v).diag = s.diag := rfl
@[simp] theorem setReg_regWritten (s : State) (i : Nibble) (v : Byte) : (s.setReg i v).regWritten = s.regWritten.set i.toNat true (by have := i.isLt; omega) := rfl
@[simp] theorem setReg_indexWritten (s : State) (i : Nibble) (v : Byte) : (s.setReg i v).indexWritten = s.indexWritten := rfl
@[simp] theorem setReg_keys (s : State) (i : Nibble) (v : Byte) : (s.setReg i v).keys = s.keys := rfl
@[simp] theorem setReg_result (s : State) (i : Nibble) (v : Byte) : (s.setReg i v).result = s.result := rfl
@[simp] theorem setReg_params (s : State) (i : Nibble) (v : Byte) : (s.setReg i v).params = s.params := rfl

/-! ### setIndex -/

@[simp] theorem setIndex_regs (s : State) (v : Word) : (s.setIndex v).regs = s.regs := rfl
@[simp] theorem setIndex_index (s : State) (v : Word) : (s.setIndex v).index = v := rfl
@[simp] theorem setIndex_pc (s : State) (v : Word) : (s.setIndex v).pc = s.pc := rfl
@[simp] theorem setIndex_sp (s : State) (v : Word) : (s.setIndex v).sp = s.sp := rfl
@[simp] theorem setIndex_stack (s : State) (v : Word) : (s.setIndex v).stack = s.stack := rfl
@[simp] theorem setIndex_dt (s : State) (v : Word) : (s.setIndex v).dt = s.dt := rfl
@[simp] theorem setIndex_st (s : State) (v : Word) : (s.setIndex v).st = s.st := rfl
@[simp] theorem setIndex_fb (s : State) (v : Word) : (s.setIndex v).fb = s.fb := rfl
@[simp] theorem setIndex_mem (s : State) (v : Word) : (s.setIndex v).mem = s.mem := rfl
@[simp] theorem setIndex_runState (s : State) (v : Word) : (s.setIndex v).runState = s.runState := rfl
@[simp] theorem setIndex_diag (s : State) (v : Word) : (s.setIndex v).diag = s.diag := rfl
@[simp] theorem setIndex_regWritten (s : State) (v : Word) : (s.setIndex v).regWritten = s.regWritten := rfl
@[simp] theorem setIndex_indexWritten (s : State) (v : Word) : (s.setIndex v).indexWritten = true := rfl
@[simp] theorem setIndex_keys (s : State) (v : Word) : (s.setIndex v).keys = s.keys := rfl
@[simp] theorem setIndex_result (s : State) (v : Word) : (s.setIndex v).result = s.result := rfl
@[simp] theorem setIndex_params (s : State) (v : Word) : (s.setIndex v).params = s.params := rfl

/-! ### setPc -/

@[simp] theorem setPc_regs (s : State) (v : Word) : (s.setPc v).regs = s.regs := rfl
@[simp] theorem setPc_index (s : State) (v : Word) : (s.setPc v).index = s.index := rfl
@[simp] theorem setPc_pc (s : State) (v : Word) : (s.setPc v).pc = v := rfl
@[simp] theorem setPc_sp (s : State) (v : Word) : (s.setPc v).sp = s.sp := rfl
@[simp] theorem setPc_stack (s : State) (v : Word) : (s.setPc v).stack = s.stack := rfl
@[simp] theorem setPc_dt (s : State) (v : Word) : (s.setPc v).dt = s.dt := rfl
@[simp] theorem setPc_st (s : State) (v : Word) : (s.setPc v).st = s.st := rfl
@[simp] theorem setPc_fb (s : State) (v : Word) : (s.setPc v).fb = s.fb := rfl
@[simp] theorem setPc_mem (s : State) (v : Word) : (s.setPc v).mem = s.mem := rfl
@[simp] theorem setPc_runState (s : State) (v : Word) : (s.setPc v).runState = s.runState := rfl
@[simp] theorem setPc_diag (s : State) (v : Word) : (s.setPc v).diag = s.diag := rfl
@[simp] theorem setPc_regWritten (s : State) (v : Word) : (s.setPc v).regWritten = s.regWritten := rfl
@[simp] theorem setPc_indexWritten (s : State) (v : Word) : (s.setPc v).indexWritten = s.indexWritten := rfl
@[simp] theorem setPc_keys (s : State) (v : Word) : (s.setPc v).keys = s.keys := rfl
@[simp] theorem setPc_result (s : State) (v : Word) : (s.setPc v).result = s.result := rfl
@[simp] theorem setPc_params (s : State) (v : Word) : (s.setPc v).params = s.params := rfl

/-! ### setDt -/

@[simp] theorem setDt_regs (s : State) (v : Byte) : (s.setDt v).regs = s.regs := rfl
@[simp] theorem setDt_index (s : State) (v : Byte) : (s.setDt v).index = s.index := rfl
@[simp] theorem setDt_pc (s : State) (v : Byte) : (s.setDt v).pc = s.pc := rfl
@[simp] theorem setDt_sp (s : State) (v : Byte) : (s.setDt v).sp = s.sp := rfl
@[simp] theorem setDt_stack (s : State) (v : Byte) : (s.setDt v).stack = s.stack := rfl
@[simp] theorem setDt_dt (s : State) (v : Byte) : (s.setDt v).dt = v := rfl
@[simp] theorem setDt_st (s : State) (v : Byte) : (s.setDt v).st = s.st := rfl
@[simp] theorem setDt_fb (s : State) (v : Byte) : (s.setDt v).fb = s.fb := rfl
@[simp] theorem setDt_mem (s : State) (v : Byte) : (s.setDt v).mem = s.mem := rfl
@[simp] theorem setDt_runState (s : State) (v : Byte) : (s.setDt v).runState = s.runState := rfl
@[simp] theorem setDt_diag (s : State) (v : Byte) : (s.setDt v).diag = s.diag := rfl
@[simp] theorem setDt_regWritten (s : State) (v : Byte) : (s.setDt v).regWritten = s.regWritten := rfl
@[simp] theorem setDt_indexWritten (s : State) (v : Byte) : (s.setDt v).indexWritten = s.indexWritten := rfl
@[simp] theorem setDt_keys (s : State) (v : Byte) : (s.setDt v).keys = s.keys := rfl
@[simp] theorem setDt_result (s : State) (v : Byte) : (s.setDt v).result = s.result := rfl
@[simp] theorem setDt_params (s : State) (v : Byte) : (s.setDt v).params = s.params := rfl

/-! ### setSt -/

@[simp] theorem setSt_regs (s : State) (v : Byte) : (s.setSt v).regs = s.regs := rfl
@[simp] theorem setSt_index (s : State) (v : Byte) : (s.setSt v).index = s.index := rfl
@[simp] theorem setSt_pc (s : State) (v : Byte) : (s.setSt v).pc = s.pc := rfl
@[simp] theorem setSt_sp (s : State) (v : Byte) : (s.setSt v).sp = s.sp := rfl
@[simp] theorem setSt_stack (s : State) (v : Byte) : (s.setSt v).stack = s.stack := rfl
@[simp] theorem setSt_dt (s : State) (v : Byte) : (s.setSt v).dt = s.dt := rfl
@[simp] theorem setSt_st (s : State) (v : Byte) : (s.setSt v).st = v := rfl
@[simp] theorem setSt_fb (s : State) (v : Byte) : (s.setSt v).fb = s.fb := rfl
@[simp] theorem setSt_mem (s : State) (v : Byte) : (s.setSt v).mem = s.mem := rfl
@[simp] theorem setSt_runState (s : State) (v : Byte) : (s.setSt v).runState = s.runState := rfl
@[simp] theorem setSt_diag (s : State) (v : Byte) : (s.setSt v).diag = s.diag := rfl
@[simp] theorem setSt_regWritten (s : State) (v : Byte) : (s.setSt v).regWritten = s.regWritten := rfl
@[simp] theorem setSt_indexWritten (s : State) (v : Byte) : (s.setSt v).indexWritten = s.indexWritten := rfl
@[simp] theorem setSt_keys (s : State) (v : Byte) : (s.setSt v).keys = s.keys := rfl
@[simp] theorem setSt_result (s : State) (v : Byte) : (s.setSt v).result = s.result := rfl
@[simp] theorem setSt_params (s : State) (v : Byte) : (s.setSt v).params = s.params := rfl

/-! ### setRunState -/

@[simp] theorem setRunState_regs (s : State) (r : RunState) : (s.setRunState r).regs = s.regs := rfl
@[simp] theorem setRunState_index (s : State) (r : RunState) : (s.setRunState r).index = s.index := rfl
@[simp] theorem setRunState_pc (s : State) (r : RunState) : (s.setRunState r).pc = s.pc := rfl
@[simp] theorem setRunState_sp (s : State) (r : RunState) : (s.setRunState r).sp = s.sp := rfl
@[simp] theorem setRunState_stack (s : State) (r : RunState) : (s.setRunState r).stack = s.stack := rfl
@[simp] theorem setRunState_dt (s : State) (r : RunState) : (s.setRunState r).dt = s.dt := rfl
@[simp] theorem setRunState_st (s : State) (r : RunState) : (s.setRunState r).st = s.st := rfl
@[simp] theorem setRunState_fb (s : State) (r : RunState) : (s.setRunState r).fb = s.fb := rfl
@[simp] theorem setRunState_mem (s : State) (r : RunState) : (s.setRunState r).mem = s.mem := rfl
@[simp] theorem setRunState_runState (s : State) (r : RunState) : (s.setRunState r).runState = r := rfl
@[simp] theorem setRunState_diag (s : State) (r : RunState) : (s.setRunState r).diag = s.diag := rfl
@[simp] theorem setRunState_regWritten (s : State) (r : RunState) : (s.setRunState r).regWritten = s.regWritten := rfl
@[simp] theorem setRunState_indexWritten (s : State) (r : RunState) : (s.setRunState r).indexWritten = s.indexWritten := rfl
@[simp] theorem setRunState_keys (s : State) (r : RunState) : (s.setRunState r).keys = s.keys := rfl
@[simp] theorem setRunState_result (s : State) (r : RunState) : (s.setRunState r).result = s.result := rfl
@[simp] theorem setRunState_params (s : State) (r : RunState) : (s.setRunState r).params = s.params := rfl

/-! ### setKeys -/

@[simp] theorem setKeys_regs (s : State) (k : Vector Bool 16) : (s.setKeys k).regs = s.regs := rfl
@[simp] theorem setKeys_index (s : State) (k : Vector Bool 16) : (s.setKeys k).index = s.index := rfl
@[simp] theorem setKeys_pc (s : State) (k : Vector Bool 16) : (s.setKeys k).pc = s.pc := rfl
@[simp] theorem setKeys_sp (s : State) (k : Vector Bool 16) : (s.setKeys k).sp = s.sp := rfl
@[simp] theorem setKeys_stack (s : State) (k : Vector Bool 16) : (s.setKeys k).stack = s.stack := rfl
@[simp] theorem setKeys_dt (s : State) (k : Vector Bool 16) : (s.setKeys k).dt = s.dt := rfl
@[simp] theorem setKeys_st (s : State) (k : Vector Bool 16) : (s.setKeys k).st = s.st := rfl
@[simp] theorem setKeys_fb (s : State) (k : Vector Bool 16) : (s.setKeys k).fb = s.fb := rfl
@[simp] theorem setKeys_mem (s : State) (k : Vector Bool 16) : (s.setKeys k).mem = s.mem := rfl
@[simp] theorem setKeys_runState (s : State) (k : Vector Bool 16) : (s.setKeys k).runState = s.runState := rfl
@[simp] theorem setKeys_diag (s : State) (k : Vector Bool 16) : (s.setKeys k).diag = s.diag := rfl
@[simp] theorem setKeys_regWritten (s : State) (k : Vector Bool 16) : (s.setKeys k).regWritten = s.regWritten := rfl
@[simp] theorem setKeys_indexWritten (s : State) (k : Vector Bool 16) : (s.setKeys k).indexWritten = s.indexWritten := rfl
@[simp] theorem setKeys_keys (s : State) (k : Vector Bool 16) : (s.setKeys k).keys = k := rfl
@[simp] theorem setKeys_result (s : State) (k : Vector Bool 16) : (s.setKeys k).result = s.result := rfl
@[simp] theorem setKeys_params (s : State) (k : Vector Bool 16) : (s.setKeys k).params = s.params := rfl

/-! ### setResult -/

@[simp] theorem setResult_regs (s : State) (r : StepResult) : (s.setResult r).regs = s.regs := rfl
@[simp] theorem setResult_index (s : State) (r : StepResult) : (s.setResult r).index = s.index := rfl
@[simp] theorem setResult_pc (s : State) (r : StepResult) : (s.setResult r).pc = s.pc := rfl
@[simp] theorem setResult_sp (s : State) (r : StepResult) : (s.setResult r).sp = s.sp := rfl
@[simp] theorem setResult_stack (s : State) (r : StepResult) : (s.setResult r).stack = s.stack := rfl
@[simp] theorem setResult_dt (s : State) (r : StepResult) : (s.setResult r).dt = s.dt := rfl
@[simp] theorem setResult_st (s : State) (r : StepResult) : (s.setResult r).st = s.st := rfl
@[simp] theorem setResult_fb (s : State) (r : StepResult) : (s.setResult r).fb = s.fb := rfl
@[simp] theorem setResult_mem (s : State) (r : StepResult) : (s.setResult r).mem = s.mem := rfl
@[simp] theorem setResult_runState (s : State) (r : StepResult) : (s.setResult r).runState = s.runState := rfl
@[simp] theorem setResult_diag (s : State) (r : StepResult) : (s.setResult r).diag = s.diag := rfl
@[simp] theorem setResult_regWritten (s : State) (r : StepResult) : (s.setResult r).regWritten = s.regWritten := rfl
@[simp] theorem setResult_indexWritten (s : State) (r : StepResult) : (s.setResult r).indexWritten = s.indexWritten := rfl
@[simp] theorem setResult_keys (s : State) (r : StepResult) : (s.setResult r).keys = s.keys := rfl
@[simp] theorem setResult_result (s : State) (r : StepResult) : (s.setResult r).result = r := rfl
@[simp] theorem setResult_params (s : State) (r : StepResult) : (s.setResult r).params = s.params := rfl

/-! ### emit -/

@[simp] theorem emit_regs (s : State) (e : Event) : (s.emit e).regs = s.regs := rfl
@[simp] theorem emit_index (s : State) (e : Event) : (s.emit e).index = s.index := rfl
@[simp] theorem emit_pc (s : State) (e : Event) : (s.emit e).pc = s.pc := rfl
@[simp] theorem emit_sp (s : State) (e : Event) : (s.emit e).sp = s.sp := rfl
@[simp] theorem emit_stack (s : State) (e : Event) : (s.emit e).stack = s.stack := rfl
@[simp] theorem emit_dt (s : State) (e : Event) : (s.emit e).dt = s.dt := rfl
@[simp] theorem emit_st (s : State) (e : Event) : (s.emit e).st = s.st := rfl
@[simp] theorem emit_fb (s : State) (e : Event) : (s.emit e).fb = s.fb := rfl
@[simp] theorem emit_mem (s : State) (e : Event) : (s.emit e).mem = s.mem := rfl
@[simp] theorem emit_runState (s : State) (e : Event) : (s.emit e).runState = s.runState := rfl
@[simp] theorem emit_diag (s : State) (e : Event) : (s.emit e).diag = s.diag ++ [e] := rfl
@[simp] theorem emit_regWritten (s : State) (e : Event) : (s.emit e).regWritten = s.regWritten := rfl
@[simp] theorem emit_indexWritten (s : State) (e : Event) : (s.emit e).indexWritten = s.indexWritten := rfl
@[simp] theorem emit_keys (s : State) (e : Event) : (s.emit e).keys = s.keys := rfl
@[simp] theorem emit_result (s : State) (e : Event) : (s.emit e).result = s.result := rfl
@[simp] theorem emit_params (s : State) (e : Event) : (s.emit e).params = s.params := rfl

/-! ### ok -/

@[simp] theorem ok_regs (s : State) : s.ok.regs = s.regs := rfl
@[simp] theorem ok_index (s : State) : s.ok.index = s.index := rfl
@[simp] theorem ok_pc (s : State) : s.ok.pc = s.pc := rfl
@[simp] theorem ok_sp (s : State) : s.ok.sp = s.sp := rfl
@[simp] theorem ok_stack (s : State) : s.ok.stack = s.stack := rfl
@[simp] theorem ok_dt (s : State) : s.ok.dt = s.dt := rfl
@[simp] theorem ok_st (s : State) : s.ok.st = s.st := rfl
@[simp] theorem ok_fb (s : State) : s.ok.fb = s.fb := rfl
@[simp] theorem ok_mem (s : State) : s.ok.mem = s.mem := rfl
@[simp] theorem ok_runState (s : State) : s.ok.runState = s.runState := rfl
@[simp] theorem ok_diag (s : State) : s.ok.diag = s.diag := rfl
@[simp] theorem ok_regWritten (s : State) : s.ok.regWritten = s.regWritten := rfl
@[simp] theorem ok_indexWritten (s : State) : s.ok.indexWritten = s.indexWritten := rfl
@[simp] theorem ok_keys (s : State) : s.ok.keys = s.keys := rfl
@[simp] theorem ok_result (s : State) : s.ok.result = .ok := rfl
@[simp] theorem ok_params (s : State) : s.ok.params = s.params := rfl

/-! ### setSlot -/

@[simp] theorem setSlot_regs (s : State) (k : Nat) (v : Word) : (s.setSlot k v).regs = s.regs := rfl
@[simp] theorem setSlot_index (s : State) (k : Nat) (v : Word) : (s.setSlot k v).index = s.index := rfl
@[simp] theorem setSlot_pc (s : State) (k : Nat) (v : Word) : (s.setSlot k v).pc = s.pc := rfl
@[simp] theorem setSlot_sp (s : State) (k : Nat) (v : Word) : (s.setSlot k v).sp = s.sp := rfl
@[simp] theorem setSlot_stack (s : State) (k : Nat) (v : Word) : (s.setSlot k v).stack = s.stack.setIfInBounds (k - 1) v := rfl
@[simp] theorem setSlot_dt (s : State) (k : Nat) (v : Word) : (s.setSlot k v).dt = s.dt := rfl
@[simp] theorem setSlot_st (s : State) (k : Nat) (v : Word) : (s.setSlot k v).st = s.st := rfl
@[simp] theorem setSlot_fb (s : State) (k : Nat) (v : Word) : (s.setSlot k v).fb = s.fb := rfl
@[simp] theorem setSlot_mem (s : State) (k : Nat) (v : Word) : (s.setSlot k v).mem = s.mem := rfl
@[simp] theorem setSlot_runState (s : State) (k : Nat) (v : Word) : (s.setSlot k v).runState = s.runState := rfl
@[simp] theorem setSlot_diag (s : State) (k : Nat) (v : Word) : (s.setSlot k v).diag = s.diag := rfl
@[simp] theorem setSlot_regWritten (s : State) (k : Nat) (v : Word) : (s.setSlot k v).regWritten = s.regWritten := rfl
@[simp] theorem setSlot_indexWritten (s : State) (k : Nat) (v : Word) : (s.setSlot k v).indexWritten = s.indexWritten := rfl
@[simp] theorem setSlot_keys (s : State) (k : Nat) (v : Word) : (s.setSlot k v).keys = s.keys := rfl
@[simp] theorem setSlot_result (s : State) (k : Nat) (v : Word) : (s.setSlot k v).result = s.result := rfl
@[simp] theorem setSlot_params (s : State) (k : Nat) (v : Word) : (s.setSlot k v).params = s.params := rfl

/-! ### setSp -/

@[simp] theorem setSp_regs (s : State) (v : Byte) : (s.setSp v).regs = s.regs := rfl
@[simp] theorem setSp_index (s : State) (v : Byte) : (s.setSp v).index = s.index := rfl
@[simp] theorem setSp_pc (s : State) (v : Byte) : (s.setSp v).pc = s.pc := rfl
@[simp] theorem setSp_sp (s : State) (v : Byte) : (s.setSp v).sp = v := rfl
@[simp] theorem setSp_stack (s : State) (v : Byte) : (s.setSp v).stack = s.stack := rfl
@[simp] theorem setSp_dt (s : State) (v : Byte) : (s.setSp v).dt = s.dt := rfl
@[simp] theorem setSp_st (s : State) (v : Byte) : (s.setSp v).st = s.st := rfl
@[simp] theorem setSp_fb (s : State) (v : Byte) : (s.setSp v).fb = s.fb := rfl
@[simp] theorem setSp_mem (s : State) (v : Byte) : (s.setSp v).mem = s.mem := rfl
@[simp] theorem setSp_runState (s : State) (v : Byte) : (s.setSp v).runState = s.runState := rfl
@[simp] theorem setSp_diag (s : State) (v : Byte) : (s.setSp v).diag = s.diag := rfl
@[simp] theorem setSp_regWritten (s : State) (v : Byte) : (s.setSp v).regWritten = s.regWritten := rfl
@[simp] theorem setSp_indexWritten (s : State) (v : Byte) : (s.setSp v).indexWritten = s.indexWritten := rfl
@[simp] theorem setSp_keys (s : State) (v : Byte) : (s.setSp v).keys = s.keys := rfl
@[simp] theorem setSp_result (s : State) (v : Byte) : (s.setSp v).result = s.result := rfl
@[simp] theorem setSp_params (s : State) (v : Byte) : (s.setSp v).params = s.params := rfl

/-! ### push -/

@[simp] theorem push_regs (s : State) (v : Word) : (s.push v).regs = s.regs := rfl
@[simp] theorem push_index (s : State) (v : Word) : (s.push v).index = s.index := rfl
@[simp] theorem push_pc (s : State) (v : Word) : (s.push v).pc = s.pc := rfl
@[simp] theorem push_sp (s : State) (v : Word) : (s.push v).sp = s.sp + 1 := rfl
@[simp] theorem push_stack (s : State) (v : Word) : (s.push v).stack = s.stack.setIfInBounds ((s.sp + 1).toNat - 1) v := rfl
@[simp] theorem push_dt (s : State) (v : Word) : (s.push v).dt = s.dt := rfl
@[simp] theorem push_st (s : State) (v : Word) : (s.push v).st = s.st := rfl
@[simp] theorem push_fb (s : State) (v : Word) : (s.push v).fb = s.fb := rfl
@[simp] theorem push_mem (s : State) (v : Word) : (s.push v).mem = s.mem := rfl
@[simp] theorem push_runState (s : State) (v : Word) : (s.push v).runState = s.runState := rfl
@[simp] theorem push_diag (s : State) (v : Word) : (s.push v).diag = s.diag := rfl
@[simp] theorem push_regWritten (s : State) (v : Word) : (s.push v).regWritten = s.regWritten := rfl
@[simp] theorem push_indexWritten (s : State) (v : Word) : (s.push v).indexWritten = s.indexWritten := rfl
@[simp] theorem push_keys (s : State) (v : Word) : (s.push v).keys = s.keys := rfl
@[simp] theorem push_result (s : State) (v : Word) : (s.push v).result = s.result := rfl
@[simp] theorem push_params (s : State) (v : Word) : (s.push v).params = s.params := rfl

/-! ### memWrite -/

@[simp] theorem memWrite_regs (s : State) (a : Nat) (v : Byte) : (s.memWrite a v).regs = s.regs := rfl
@[simp] theorem memWrite_index (s : State) (a : Nat) (v : Byte) : (s.memWrite a v).index = s.index := rfl
@[simp] theorem memWrite_pc (s : State) (a : Nat) (v : Byte) : (s.memWrite a v).pc = s.pc := rfl
@[simp] theorem memWrite_sp (s : State) (a : Nat) (v : Byte) : (s.memWrite a v).sp = s.sp := rfl
@[simp] theorem memWrite_stack (s : State) (a : Nat) (v : Byte) : (s.memWrite a v).stack = s.stack := rfl
@[simp] theorem memWrite_dt (s : State) (a : Nat) (v : Byte) : (s.memWrite a v).dt = s.dt := rfl
@[simp] theorem memWrite_st (s : State) (a : Nat) (v : Byte) : (s.memWrite a v).st = s.st := rfl
@[simp] theorem memWrite_fb (s : State) (a : Nat) (v : Byte) : (s.memWrite a v).fb = s.fb := rfl
@[simp] theorem memWrite_mem (s : State) (a : Nat) (v : Byte) : (s.memWrite a v).mem = Cells.put 0#8 s.mem (translate a) v := rfl
@[simp] theorem memWrite_runState (s : State) (a : Nat) (v : Byte) : (s.memWrite a v).runState = s.runState := rfl
@[simp] theorem memWrite_diag (s : State) (a : Nat) (v : Byte) : (s.memWrite a v).diag = s.diag := rfl
@[simp] theorem memWrite_regWritten (s : State) (a : Nat) (v : Byte) : (s.memWrite a v).regWritten = s.regWritten := rfl
@[simp] theorem memWrite_indexWritten (s : State) (a : Nat) (v : Byte) : (s.memWrite a v).indexWritten = s.indexWritten := rfl
@[simp] theorem memWrite_keys (s : State) (a : Nat) (v : Byte) : (s.memWrite a v).keys = s.keys := rfl
@[simp] theorem memWrite_result (s : State) (a : Nat) (v : Byte) : (s.memWrite a v).result = s.result := rfl
@[simp] theorem memWrite_params (s : State) (a : Nat) (v : Byte) : (s.memWrite a v).params = s.params := rfl

/-! ### setFb -/

@[simp] theorem setFb_regs (s : State) (f : Framebuffer) : (s.setFb f).regs = s.regs := rfl
@[simp] theorem setFb_index (s : State) (f : Framebuffer) : (s.setFb f).index = s.index := rfl
@[simp] theorem setFb_pc (s : State) (f : Framebuffer) : (s.setFb f).pc = s.pc := rfl
@[simp] theorem setFb_sp (s : State) (f : Framebuffer) : (s.setFb f).sp = s.sp := rfl
@[simp] theorem setFb_stack (s : State) (f : Framebuffer) : (s.setFb f).stack = s.stack := rfl
@[simp] theorem setFb_dt (s : State) (f : Framebuffer) : (s.setFb f).dt = s.dt := rfl
@[simp] theorem setFb_st (s : State) (f : Framebuffer) : (s.setFb f).st = s.st := rfl
@[simp] theorem setFb_fb (s : State) (f : Framebuffer) : (s.setFb f).fb = f := rfl
@[simp] theorem setFb_mem (s : State) (f : Framebuffer) : (s.setFb f).mem = s.mem := rfl
@[simp] theorem setFb_runState (s : State) (f : Framebuffer) : (s.setFb f).runState = s.runState := rfl
@[simp] theorem setFb_diag (s : State) (f : Framebuffer) : (s.setFb f).diag = s.diag := rfl
@[simp] theorem setFb_regWritten (s : State) (f : Framebuffer) : (s.setFb f).regWritten = s.regWritten := rfl
@[simp] theorem setFb_indexWritten (s : State) (f : Framebuffer) : (s.setFb f).indexWritten = s.indexWritten := rfl
@[simp] theorem setFb_keys (s : State) (f : Framebuffer) : (s.setFb f).keys = s.keys := rfl
@[simp] theorem setFb_result (s : State) (f : Framebuffer) : (s.setFb f).result = s.result := rfl
@[simp] theorem setFb_params (s : State) (f : Framebuffer) : (s.setFb f).params = s.params := rfl

/-! ### takeFatal -/

@[simp] theorem takeFatal_regs (s : State) (k : FatalKind) (a : Word) (w : Option Word) : (s.takeFatal k a w).regs = s.regs := rfl
@[simp] theorem takeFatal_index (s : State) (k : FatalKind) (a : Word) (w : Option Word) : (s.takeFatal k a w).index = s.index := rfl
@[simp] theorem takeFatal_pc (s : State) (k : FatalKind) (a : Word) (w : Option Word) : (s.takeFatal k a w).pc = s.pc := rfl
@[simp] theorem takeFatal_sp (s : State) (k : FatalKind) (a : Word) (w : Option Word) : (s.takeFatal k a w).sp = s.sp := rfl
@[simp] theorem takeFatal_stack (s : State) (k : FatalKind) (a : Word) (w : Option Word) : (s.takeFatal k a w).stack = s.stack := rfl
@[simp] theorem takeFatal_dt (s : State) (k : FatalKind) (a : Word) (w : Option Word) : (s.takeFatal k a w).dt = s.dt := rfl
@[simp] theorem takeFatal_st (s : State) (k : FatalKind) (a : Word) (w : Option Word) : (s.takeFatal k a w).st = s.st := rfl
@[simp] theorem takeFatal_fb (s : State) (k : FatalKind) (a : Word) (w : Option Word) : (s.takeFatal k a w).fb = s.fb := rfl
@[simp] theorem takeFatal_mem (s : State) (k : FatalKind) (a : Word) (w : Option Word) : (s.takeFatal k a w).mem = s.mem := rfl
@[simp] theorem takeFatal_runState (s : State) (k : FatalKind) (a : Word) (w : Option Word) : (s.takeFatal k a w).runState = .halted := rfl
@[simp] theorem takeFatal_diag (s : State) (k : FatalKind) (a : Word) (w : Option Word) : (s.takeFatal k a w).diag = s.diag ++ [⟨.fatal k, a, w⟩] := rfl
@[simp] theorem takeFatal_regWritten (s : State) (k : FatalKind) (a : Word) (w : Option Word) : (s.takeFatal k a w).regWritten = s.regWritten := rfl
@[simp] theorem takeFatal_indexWritten (s : State) (k : FatalKind) (a : Word) (w : Option Word) : (s.takeFatal k a w).indexWritten = s.indexWritten := rfl
@[simp] theorem takeFatal_keys (s : State) (k : FatalKind) (a : Word) (w : Option Word) : (s.takeFatal k a w).keys = s.keys := rfl
@[simp] theorem takeFatal_result (s : State) (k : FatalKind) (a : Word) (w : Option Word) : (s.takeFatal k a w).result = .fatal k := rfl
@[simp] theorem takeFatal_params (s : State) (k : FatalKind) (a : Word) (w : Option Word) : (s.takeFatal k a w).params = s.params := rfl

/-! ### takeRecoverable -/

@[simp] theorem takeRecoverable_regs (s : State) (k : RecoverableKind) (a : Word) (w : Option Word) : (s.takeRecoverable k a w).regs = s.regs := rfl
@[simp] theorem takeRecoverable_index (s : State) (k : RecoverableKind) (a : Word) (w : Option Word) : (s.takeRecoverable k a w).index = s.index := rfl
@[simp] theorem takeRecoverable_pc (s : State) (k : RecoverableKind) (a : Word) (w : Option Word) : (s.takeRecoverable k a w).pc = s.pc := rfl
@[simp] theorem takeRecoverable_sp (s : State) (k : RecoverableKind) (a : Word) (w : Option Word) : (s.takeRecoverable k a w).sp = s.sp := rfl
@[simp] theorem takeRecoverable_stack (s : State) (k : RecoverableKind) (a : Word) (w : Option Word) : (s.takeRecoverable k a w).stack = s.stack := rfl
@[simp] theorem takeRecoverable_dt (s : State) (k : RecoverableKind) (a : Word) (w : Option Word) : (s.takeRecoverable k a w).dt = s.dt := rfl
@[simp] theorem takeRecoverable_st (s : State) (k : RecoverableKind) (a : Word) (w : Option Word) : (s.takeRecoverable k a w).st = s.st := rfl
@[simp] theorem takeRecoverable_fb (s : State) (k : RecoverableKind) (a : Word) (w : Option Word) : (s.takeRecoverable k a w).fb = s.fb := rfl
@[simp] theorem takeRecoverable_mem (s : State) (k : RecoverableKind) (a : Word) (w : Option Word) : (s.takeRecoverable k a w).mem = s.mem := rfl
@[simp] theorem takeRecoverable_runState (s : State) (k : RecoverableKind) (a : Word) (w : Option Word) : (s.takeRecoverable k a w).runState = s.runState := rfl
@[simp] theorem takeRecoverable_diag (s : State) (k : RecoverableKind) (a : Word) (w : Option Word) : (s.takeRecoverable k a w).diag = s.diag ++ [⟨.recoverable k, a, w⟩] := rfl
@[simp] theorem takeRecoverable_regWritten (s : State) (k : RecoverableKind) (a : Word) (w : Option Word) : (s.takeRecoverable k a w).regWritten = s.regWritten := rfl
@[simp] theorem takeRecoverable_indexWritten (s : State) (k : RecoverableKind) (a : Word) (w : Option Word) : (s.takeRecoverable k a w).indexWritten = s.indexWritten := rfl
@[simp] theorem takeRecoverable_keys (s : State) (k : RecoverableKind) (a : Word) (w : Option Word) : (s.takeRecoverable k a w).keys = s.keys := rfl
@[simp] theorem takeRecoverable_result (s : State) (k : RecoverableKind) (a : Word) (w : Option Word) : (s.takeRecoverable k a w).result = .recoverable k := rfl
@[simp] theorem takeRecoverable_params (s : State) (k : RecoverableKind) (a : Word) (w : Option Word) : (s.takeRecoverable k a w).params = s.params := rfl

/-! ### noteUnimplemented -/

@[simp] theorem noteUnimplemented_regs (s : State) (i : Instr) : (s.noteUnimplemented i).regs = s.regs := rfl
@[simp] theorem noteUnimplemented_index (s : State) (i : Instr) : (s.noteUnimplemented i).index = s.index := rfl
@[simp] theorem noteUnimplemented_pc (s : State) (i : Instr) : (s.noteUnimplemented i).pc = s.pc := rfl
@[simp] theorem noteUnimplemented_sp (s : State) (i : Instr) : (s.noteUnimplemented i).sp = s.sp := rfl
@[simp] theorem noteUnimplemented_stack (s : State) (i : Instr) : (s.noteUnimplemented i).stack = s.stack := rfl
@[simp] theorem noteUnimplemented_dt (s : State) (i : Instr) : (s.noteUnimplemented i).dt = s.dt := rfl
@[simp] theorem noteUnimplemented_st (s : State) (i : Instr) : (s.noteUnimplemented i).st = s.st := rfl
@[simp] theorem noteUnimplemented_fb (s : State) (i : Instr) : (s.noteUnimplemented i).fb = s.fb := rfl
@[simp] theorem noteUnimplemented_mem (s : State) (i : Instr) : (s.noteUnimplemented i).mem = s.mem := rfl
@[simp] theorem noteUnimplemented_runState (s : State) (i : Instr) : (s.noteUnimplemented i).runState = s.runState := rfl
@[simp] theorem noteUnimplemented_diag (s : State) (i : Instr) : (s.noteUnimplemented i).diag = s.diag ++ [⟨.unimplemented, s.pc - 2#16, some (encode i)⟩] := rfl
@[simp] theorem noteUnimplemented_regWritten (s : State) (i : Instr) : (s.noteUnimplemented i).regWritten = s.regWritten := rfl
@[simp] theorem noteUnimplemented_indexWritten (s : State) (i : Instr) : (s.noteUnimplemented i).indexWritten = s.indexWritten := rfl
@[simp] theorem noteUnimplemented_keys (s : State) (i : Instr) : (s.noteUnimplemented i).keys = s.keys := rfl
@[simp] theorem noteUnimplemented_result (s : State) (i : Instr) : (s.noteUnimplemented i).result = .ok := rfl
@[simp] theorem noteUnimplemented_params (s : State) (i : Instr) : (s.noteUnimplemented i).params = s.params := rfl

/-! ### advance -/

@[simp] theorem advance_regs (s : State) : s.advance.regs = s.regs := rfl
@[simp] theorem advance_index (s : State) : s.advance.index = s.index := rfl
@[simp] theorem advance_pc (s : State) : s.advance.pc = s.pc + 2#16 := rfl
@[simp] theorem advance_sp (s : State) : s.advance.sp = s.sp := rfl
@[simp] theorem advance_stack (s : State) : s.advance.stack = s.stack := rfl
@[simp] theorem advance_dt (s : State) : s.advance.dt = s.dt := rfl
@[simp] theorem advance_st (s : State) : s.advance.st = s.st := rfl
@[simp] theorem advance_fb (s : State) : s.advance.fb = s.fb := rfl
@[simp] theorem advance_mem (s : State) : s.advance.mem = s.mem := rfl
@[simp] theorem advance_runState (s : State) : s.advance.runState = s.runState := rfl
@[simp] theorem advance_diag (s : State) : s.advance.diag = s.diag := rfl
@[simp] theorem advance_regWritten (s : State) : s.advance.regWritten = s.regWritten := rfl
@[simp] theorem advance_indexWritten (s : State) : s.advance.indexWritten = s.indexWritten := rfl
@[simp] theorem advance_keys (s : State) : s.advance.keys = s.keys := rfl
@[simp] theorem advance_result (s : State) : s.advance.result = s.result := rfl
@[simp] theorem advance_params (s : State) : s.advance.params = s.params := rfl

end Sys2Proof.Machine
end

