-- ==== Sys2Proof/Laws/Ops.lean ====
section
/-! SUPPORT. One lemma for each shared operation that says once what it does: registers, the call stack, memory, the
fetch and the program-counter check. -/

namespace Sys2Proof.Machine

/-! ### Reads that an update leaves alone -/

theorem reg_congr {s t : State} (h : t.regs = s.regs) (i : Nibble) : t.reg i = s.reg i := by
  simp only [State.reg, h]

theorem slot_congr {s t : State} (h : t.stack = s.stack) (k : Nat) : t.slot k = s.slot k := by
  simp only [State.slot, h]

theorem byteAt_congr {s t : State} (h : t.mem = s.mem) (a : Nat) : t.byteAt a = s.byteAt a := by
  simp only [State.byteAt, h]

theorem memRead_congr {s t : State} (h : t.mem = s.mem) (a : Nat) : t.memRead a = s.memRead a :=
  byteAt_congr h _

theorem pixel_congr {s t : State} (hf : t.fb = s.fb) (hp : t.params = s.params) (row col : Nat) :
    t.pixel row col = s.pixel row col := by
  simp only [State.pixel, hf, hp]

/-! ### General registers -/

/-- Writing one register: its value, and every other as before. -/
theorem reg_setReg (s : State) (i j : Nibble) (v : Byte) :
    (s.setReg i v).reg j = if i = j then v else s.reg j := by
  simp only [State.reg, State.setReg, Vector.getElem_set, BitVec.toNat_inj]

/-- A register write sets its bookkeeping bit and no other (R37). -/
theorem regWritten_setReg (s : State) (i j : Nibble) (v : Byte) :
    (s.setReg i v).regWritten[j.toNat]? = if i = j then some true else s.regWritten[j.toNat]? := by
  simp only [State.setReg, Vector.getElem?_set, BitVec.toNat_inj]

/-- Which reads R37 permits depends on the bits and the policy alone. -/
theorem regReadable_congr {s t : State} (hw : t.regWritten = s.regWritten)
    (hp : t.params.unwrittenRead = s.params.unwrittenRead) (i : Nibble) : t.regReadable i = s.regReadable i := by
  simp only [State.regReadable, hw, hp]

theorem indexReadable_congr {s t : State} (hw : t.indexWritten = s.indexWritten)
    (hp : t.params.unwrittenRead = s.params.unwrittenRead) : t.indexReadable = s.indexReadable := by
  simp only [State.indexReadable, hw, hp]

/-- A register is readable exactly where the policy is `zero` or its bit is set (R37). -/
theorem regReadable_iff (s : State) (i : Nibble) :
    s.regReadable i = true ↔ s.params.unwrittenRead = .zero ∨ s.regWritten[i.toNat]? = some true := by
  have hi : i.toNat < 16 := i.isLt
  simp [State.regReadable, hi]

/-! ### Call stack -/

/-- Writing an existing slot: its value, and every other slot as before. -/
theorem slot_setSlot (s : State) (k j : Nat) (v : Word) (hk : 1 ≤ k ∧ k ≤ 16) :
    (s.setSlot k v).slot j = if k = j then some v else s.slot j := by
  obtain ⟨h1, h2⟩ := hk
  simp only [State.slot, State.setSlot, Vector.getElem?_setIfInBounds]
  by_cases hj : j = 0
  · have : ¬ k = j := by omega
    simp [hj]; omega
  · by_cases hkj : k = j
    · subst hkj
      have : k - 1 < 16 := by omega
      simp [hj, this]
    · have : ¬ k - 1 = j - 1 := by omega
      simp [hj, hkj, this]

/-- A slot number in 1 to 16 names a slot. -/
theorem slot_exists (s : State) (k : Nat) (hk : 1 ≤ k ∧ k ≤ 16) :
    s.slot k = some (s.stack[k - 1]'(by omega)) := by
  have h0 : ¬ k = 0 := by omega
  have h1 : k - 1 < 16 := by omega
  simp [State.slot, h0, h1]

theorem sp_succ_toNat (s : State) (h : s.sp.toNat < 16) : (s.sp + 1).toNat = s.sp.toNat + 1 := by
  rw [BitVec.toNat_add]
  simp; omega

/-- The push: the new top holds the value, every other slot is as before. -/
theorem slot_push (s : State) (v : Word) (j : Nat) (h : s.sp.toNat < 16) :
    (s.push v).slot j = if s.sp.toNat + 1 = j then some v else s.slot j := by
  unfold State.push
  rw [slot_setSlot _ _ _ _ (by rw [sp_succ_toNat s h]; omega), sp_succ_toNat s h]
  rfl

/-! ### Memory -/

/-- A host write: the byte at the translated address, every other byte as before. -/
theorem byteAt_memWrite (s : State) (hm : Memory.wf s.mem) (a b : Nat) (v : Byte) :
    (s.memWrite a v).byteAt b = if translate a = b then v else s.byteAt b :=
  Cells.get_put 0#8 s.mem hm.1 _ _ _

theorem translate_lt (a : Nat) : translate a < Config.memSize := Nat.mod_lt _ (by decide)

theorem translate_of_lt {a : Nat} (h : a < Config.memSize) : translate a = a := Nat.mod_eq_of_lt h

/-- A memory write keeps the canonical form. -/
theorem memWrite_wf (s : State) (hm : Memory.wf s.mem) (a : Nat) (v : Byte) : Memory.wf (s.memWrite a v).mem :=
  ⟨Cells.put_canonical 0#8 s.mem hm.1 _ _, Cells.put_below 0#8 _ s.mem hm.2 _ _ (translate_lt a)⟩

/-- Writing several bytes keeps the canonical form. -/
theorem writeBytes_wf (bs : List Byte) (s : State) (hm : Memory.wf s.mem) (a : Nat) :
    Memory.wf (s.writeBytes a bs).mem := by
  induction bs generalizing s a with
  | nil => exact hm
  | cons b bs ih => exact ih _ (memWrite_wf s hm a b) _

/-- Memory after reset is in canonical form. -/
theorem reset_memory_wf : Memory.wf State.reset.mem := by decide

/-- Writing bytes changes memory alone. -/
theorem writeBytes_fields (bs : List Byte) (s : State) (a : Nat) :
    s.writeBytes a bs = { s with mem := (s.writeBytes a bs).mem } := by
  induction bs generalizing s a with
  | nil => rfl
  | cons b bs ih => exact ih (s.memWrite a b) (a + 1)

/-- Bytes written inside memory: each reads back, every other byte is as before. -/
theorem byteAt_writeBytes (bs : List Byte) (s : State) (a : Nat) (hm : Memory.wf s.mem) (h : a + bs.length ≤ 4096) :
    (∀ j (hj : j < bs.length), (s.writeBytes a bs).byteAt (a + j) = bs[j]) ∧
    (∀ b, (b < a ∨ a + bs.length ≤ b) → (s.writeBytes a bs).byteAt b = s.byteAt b) := by
  induction bs generalizing s a with
  | nil => exact ⟨fun j hj => by simp at hj, fun _ _ => rfl⟩
  | cons c bs ih =>
    simp only [List.length_cons] at h
    obtain ⟨h1, h2⟩ := ih (s.memWrite a c) (a + 1) (memWrite_wf s hm a c) (by omega)
    have ht : translate a = a := translate_of_lt (by show a < 4096; omega)
    refine ⟨fun j hj => ?_, fun b hb => ?_⟩
    · cases j with
      | zero =>
        rw [State.writeBytes, h2 _ (by omega), byteAt_memWrite s hm, ht]; simp
      | succ j =>
        have := h1 j (by simpa using hj)
        rw [State.writeBytes, show a + (j + 1) = a + 1 + j by ring, this]; simp
    · simp only [List.length_cons] at hb
      rw [State.writeBytes, h2 _ (by omega), byteAt_memWrite s hm, ht, if_neg (by omega)]

/-! ### The fetch -/

theorem pcValid_iff (pc : Word) : pcValid pc = true ↔ pc.toNat < 4095 ∧ pc.toNat % 2 = 0 := by
  unfold pcValid
  rw [Bool.and_eq_true, decide_eq_true_iff, decide_eq_true_iff]
  rfl

/-- After the program-counter check the fetch succeeds (R90, R52). -/
theorem fetchWord_of_valid (s : State) (a : Word) (h : pcValid a = true) :
    s.fetchWord a = .ok (wordOfBytes (s.byteAt a.toNat) (s.byteAt (a.toNat + 1))) := by
  obtain ⟨h1, h2⟩ := (pcValid_iff a).mp h
  have : ¬ (a.toNat % 2 = 1 ∨ a.toNat + 1 ≥ Config.memSize) := by simp only [Config.memSize]; omega
  simp only [State.fetchWord, this, if_false]

/-- The word the next step fetches. -/
theorem fetchAddr_advance (s : State) : s.advance.fetchAddr = s.pc := by
  simp [State.fetchAddr, State.advance, State.setPc]

/-- Everything one step can do: no step when Halted; a fatal program-counter fault; or the decoded instruction on the
advanced state. -/
theorem runCycle_cases (execute : Instr → State → Outcome) (s : State) :
    (s.runState = .halted ∧ runCycle execute s = .fault .haltedNoStep) ∨
    (s.runState ≠ .halted ∧ pcValid s.pc = false ∧
      runCycle execute s = .next (s.takeFatal .invalidProgramCounter s.pc none)) ∨
    (s.runState ≠ .halted ∧ pcValid s.pc = true ∧
      runCycle execute s =
        execute (decode (wordOfBytes (s.byteAt s.pc.toNat) (s.byteAt (s.pc.toNat + 1)))) s.advance) := by
  unfold runCycle
  by_cases hr : s.runState = .halted
  · exact .inl ⟨hr, by simp [hr]⟩
  · refine .inr ?_
    cases hv : pcValid s.pc with
    | false => exact .inl ⟨hr, rfl, by simp [hr]⟩
    | true => exact .inr ⟨hr, rfl, by simp [hr, fetchWord_of_valid s s.pc hv]⟩

end Sys2Proof.Machine
end

