-- ==== Sys2Proof/Laws/Draw.lean ====
section
/-! SUPPORT. What the blitter does, once: a pixel toggles one cell, every part of a draw keeps the framebuffer in
canonical form, a draw is its lit pixels placed one after another, and it changes the framebuffer, `VF` and the
result alone. -/

namespace Sys2Proof.Machine

/-- One placed pixel: its cell is XORed with the sprite bit, every other cell is as before. -/
theorem get_blitPixel (p : Config.Params) (row col : Nat) (bit : Bool) (b : Blit)
    (hb : Cells.Canonical false b.fb) (i : Nat) :
    Cells.get false (blitPixel p row col bit b).fb i =
      if cellIndex p row col = i then Cells.get false b.fb i ^^ bit else Cells.get false b.fb i := by
  simp only [blitPixel, cellAfterPixel, Cells.get_put false b.fb hb]
  by_cases h : cellIndex p row col = i
  · simp [h]
  · simp [h]

theorem cellIndex_lt (p : Config.Params) (row col : Nat) (hr : row < p.dispH) (hc : col < p.dispW) :
    cellIndex p row col < displayCells p := by
  unfold cellIndex displayCells
  calc row * p.dispW + col < row * p.dispW + p.dispW := by omega
    _ = (row + 1) * p.dispW := by ring
    _ ≤ p.dispH * p.dispW := Nat.mul_le_mul_right _ hr
    _ = p.dispW * p.dispH := Nat.mul_comm _ _

/-- Two cells of the display are stored at the same place only if they are the same cell. -/
theorem cellIndex_inj (p : Config.Params) {r1 c1 r2 c2 : Nat} (h1 : c1 < p.dispW) (h2 : c2 < p.dispW)
    (h : cellIndex p r1 c1 = cellIndex p r2 c2) : r1 = r2 ∧ c1 = c2 := by
  unfold cellIndex at h
  have hw : 0 < p.dispW := by omega
  have hdiv : (r1 * p.dispW + c1) / p.dispW = (r2 * p.dispW + c2) / p.dispW := by rw [h]
  rw [Nat.mul_comm r1, Nat.mul_comm r2, Nat.mul_add_div hw, Nat.mul_add_div hw, Nat.div_eq_of_lt h1,
    Nat.div_eq_of_lt h2] at hdiv
  have hr : r1 = r2 := by omega
  subst hr
  exact ⟨rfl, by omega⟩

theorem blitPixel_wf (p : Config.Params) (row col : Nat) (bit : Bool) (b : Blit) (hb : Framebuffer.wf p b.fb)
    (hr : row < p.dispH) (hc : col < p.dispW) : Framebuffer.wf p (blitPixel p row col bit b).fb :=
  ⟨Cells.put_canonical false b.fb hb.1 _ _,
    Cells.put_below false _ b.fb hb.2 _ _ (cellIndex_lt p row col hr hc)⟩

theorem blitPixels_wf (p : Config.Params) (hp : p.wf) (row col0 : Nat) (sprite : Byte) (ks : List Nat) (b : Blit)
    (hb : Framebuffer.wf p b.fb) (hr : row < p.dispH) :
    Framebuffer.wf p (blitPixels p row col0 sprite ks b).fb := by
  induction ks generalizing b with
  | nil => exact hb
  | cons k ks ih =>
    simp only [blitPixels]
    split
    · exact ih _ (blitPixel_wf p _ _ _ _ hb hr (Nat.mod_lt _ hp.1))
    · split
      · exact hb
      · exact ih _ (blitPixel_wf p _ _ _ _ hb hr (by omega))

theorem blitRow_wf (p : Config.Params) (hp : p.wf) (row col0 : Nat) (sprite : Byte) (b : Blit)
    (hb : Framebuffer.wf p b.fb) : Framebuffer.wf p (blitRow p row col0 sprite b).fb := by
  unfold blitRow
  split
  · exact blitPixels_wf p hp _ _ _ _ _ hb (Nat.mod_lt _ hp.2)
  · split
    · exact hb
    · exact blitPixels_wf p hp _ _ _ _ _ hb (by omega)

/-- A draw's rows keep the framebuffer in canonical form and inside the display. -/
theorem blitRows_wf (s : State) (hp : s.params.wf) (col0 row0 : Nat) (rs : List Nat) (b : Blit)
    (hb : Framebuffer.wf s.params b.fb) : Framebuffer.wf s.params (blitRows s col0 row0 rs b).fb := by
  induction rs generalizing b with
  | nil => exact hb
  | cons r rs ih => exact ih _ (blitRow_wf s.params hp _ _ _ _ hb)

/-- Everything the draw operation can do: the recoverable fault, a new framebuffer and `VF` with result `Ok`, or the
stop of R37. -/
theorem drawSprite_cases (x y : Nibble) (height : Nat) (word : Word) (s : State) :
    (height > 15 ∧
      drawSprite x y height word s = .next (s.takeRecoverable .spriteTooTall s.fetchAddr (some word))) ∨
    (height ≤ 15 ∧ drawReadable x y height s = true ∧ drawSprite x y height word s = .next (drawRows x y height s)) ∨
    (height ≤ 15 ∧ drawReadable x y height s = false ∧ drawSprite x y height word s = .fault .unwrittenRead) := by
  unfold drawSprite
  by_cases h : height > Config.spriteHeightMax
  · exact .inl ⟨h, if_pos h⟩
  · have h' : height ≤ 15 := Nat.not_lt.mp h
    rw [if_neg h]
    cases hr : drawReadable x y height s with
    | true => exact .inr (.inl ⟨h', rfl, rfl⟩)
    | false => exact .inr (.inr ⟨h', rfl, rfl⟩)

/-- A draw's reads are permitted exactly where R37 permits them. -/
theorem drawReadable_iff (x y n : Nibble) (s : State) :
    drawReadable x y n.toNat s = true ↔ s.Readable (.drw x y n) := by
  have hn : n.toNat = 0 ↔ n = 0#4 := ⟨fun h => BitVec.eq_of_toNat_eq h, fun h => by rw [h]; rfl⟩
  simp [drawReadable, State.Readable, hn, and_assoc]

/-! ### A draw as its lit pixels -/

/-- A lit pixel placed on a cell. -/
def place (p : Config.Params) (b : Blit) (c : Nat × Nat) : Blit := blitPixel p c.1 c.2 true b

/-- An unlit pixel changes nothing (R147). -/
theorem blitPixel_unlit (p : Config.Params) (row col : Nat) (b : Blit) (hb : Cells.Canonical false b.fb) :
    blitPixel p row col false b = b := by
  have h : (blitPixel p row col false b).fb = b.fb := by
    refine Cells.ext false _ _ (Cells.put_canonical false b.fb hb _ _) hb fun a => ?_
    rw [get_blitPixel p row col false b hb]
    simp
  have h' : (blitPixel p row col false b).vf = b.vf := by simp [blitPixel, flagAfterPixel]
  exact congr (congrArg Blit.mk h) h'

theorem blitPixel_canonical (p : Config.Params) (row col : Nat) (bit : Bool) (b : Blit)
    (hb : Cells.Canonical false b.fb) : Cells.Canonical false (blitPixel p row col bit b).fb :=
  Cells.put_canonical false b.fb hb _ _

theorem place_canonical (p : Config.Params) (c : Nat × Nat) (b : Blit)
    (hb : Cells.Canonical false b.fb) : Cells.Canonical false (place p b c).fb :=
  blitPixel_canonical p _ _ _ b hb

theorem foldl_place_canonical (p : Config.Params) (L : List (Nat × Nat)) (b : Blit)
    (hb : Cells.Canonical false b.fb) : Cells.Canonical false (L.foldl (place p) b).fb := by
  induction L generalizing b with
  | nil => exact hb
  | cons c L ih => exact ih _ (blitPixel_canonical p _ _ _ b hb)

theorem blitPixel_eq_place (p : Config.Params) (row col : Nat) (bit : Bool) (b : Blit)
    (hb : Cells.Canonical false b.fb) :
    blitPixel p row col bit b = (if bit then [(row, col)] else []).foldl (place p) b := by
  cases bit with
  | true => rfl
  | false => exact blitPixel_unlit p row col b hb

/-- The cells the lit pixels of one sprite row are placed on, in the order of placing. -/
def rowLandings (p : Config.Params) (row0 col0 r : Nat) (sprite : Byte) (ks : List Nat) : List (Nat × Nat) :=
  ks.filterMap fun k => if spritePixel sprite k then landing p row0 col0 r k else none

/-- One sprite row is its lit pixels placed one after another (R145, R146). -/
theorem blitRow_eq_fold (p : Config.Params) (row0 col0 r : Nat) (sprite : Byte) (b : Blit)
    (hb : Cells.Canonical false b.fb) :
    blitRow p (row0 + r) col0 sprite b = (rowLandings p row0 col0 r sprite (List.range 8)).foldl (place p) b := by
  unfold blitRow
  have key : ∀ (ks : List Nat) (b : Blit), ks.Pairwise (· < ·) → Cells.Canonical false b.fb →
      (p.wrapMode = true → blitPixels p ((row0 + r) % p.dispH) col0 sprite ks b =
        (rowLandings p row0 col0 r sprite ks).foldl (place p) b) ∧
      (p.wrapMode = false → row0 + r < p.dispH → blitPixels p (row0 + r) col0 sprite ks b =
        (rowLandings p row0 col0 r sprite ks).foldl (place p) b) := by
    intro ks
    induction ks with
    | nil => intro b _ _; exact ⟨fun _ => rfl, fun _ _ => rfl⟩
    | cons k ks ih =>
      intro b hks hb
      obtain ⟨hk, hks⟩ := List.pairwise_cons.mp hks
      constructor
      · intro hw
        simp only [blitPixels, hw, if_true]
        rw [(ih _ hks (blitPixel_canonical p _ _ _ b hb)).1 hw, blitPixel_eq_place p _ _ _ _ hb, ← List.foldl_append]
        congr 1
        simp only [rowLandings, landing, hw, if_true, List.filterMap_cons]
        cases spritePixel sprite k <;> simp
      · intro hw hr
        simp only [blitPixels, hw, Bool.false_eq_true, if_false]
        split
        · next hc =>
          have : rowLandings p row0 col0 r sprite (k :: ks) = [] := by
            simp only [rowLandings, List.filterMap_eq_nil_iff]
            intro j hj
            have : ¬ col0 + j < p.dispW := by
              rcases List.mem_cons.mp hj with rfl | hj
              · omega
              · have := hk j hj; omega
            simp [landing, hw, this]
          rw [this]; rfl
        · next hc =>
          have hc' : col0 + k < p.dispW := by omega
          rw [(ih _ hks (blitPixel_canonical p _ _ _ b hb)).2 hw hr, blitPixel_eq_place p _ _ _ _ hb, ← List.foldl_append]
          congr 1
          simp only [rowLandings, landing, hw, List.filterMap_cons, hr, hc', and_self, if_true, Bool.false_eq_true, if_false]
          cases spritePixel sprite k <;> simp
  have k8 := key (List.range 8) b (List.pairwise_lt_range) hb
  split
  · next hw => exact k8.1 hw
  · next hw =>
    have hw : p.wrapMode = false := by simpa using hw
    split
    · next hr =>
      have : rowLandings p row0 col0 r sprite (List.range 8) = [] := by
        simp only [rowLandings, List.filterMap_eq_nil_iff]
        intro j _
        have : ¬ row0 + r < p.dispH := by omega
        simp [landing, hw, this]
      rw [this]; rfl
    · next hr => exact k8.2 hw (by omega)

/-- The rows of a draw are the lit pixels placed one after another, in the order of `State.landings` (R148). -/
theorem blitRows_eq_fold (s : State) (col0 row0 : Nat) (rs : List Nat) (b : Blit) (hb : Cells.Canonical false b.fb) :
    blitRows s col0 row0 rs b =
      (rs.flatMap fun r => (List.range 8).filterMap fun k =>
        if s.lit r k then landing s.params row0 col0 r k else none).foldl (place s.params) b := by
  induction rs generalizing b with
  | nil => rfl
  | cons r rs ih =>
    simp only [blitRows, List.flatMap_cons, List.foldl_append]
    rw [blitRow_eq_fold s.params row0 col0 r _ b hb]
    exact ih _ (foldl_place_canonical _ _ _ hb)

/-- A pixel is placed inside the display only. -/
theorem landing_bounds {p : Config.Params} (hp : p.wf) {row0 col0 r k : Nat} {c : Nat × Nat}
    (h : landing p row0 col0 r k = some c) : c.1 < p.dispH ∧ c.2 < p.dispW := by
  unfold landing at h
  split at h
  · cases h; exact ⟨Nat.mod_lt _ hp.2, Nat.mod_lt _ hp.1⟩
  · split at h
    · next hh => cases h; exact hh
    · cases h

theorem landings_bounds {s : State} (hp : s.params.wf) {x y : Nibble} {h : Nat} {c : Nat × Nat}
    (hc : c ∈ s.landings x y h) : c.1 < s.params.dispH ∧ c.2 < s.params.dispW := by
  simp only [State.landings, List.mem_flatMap, List.mem_filterMap] at hc
  obtain ⟨r, _, k, _, hc⟩ := hc
  split at hc
  · exact landing_bounds hp hc
  · cases hc

theorem add_mod_inj {m a b c : Nat} (hb : b < m) (hc : c < m) (h : (a + b) % m = (a + c) % m) : b = c := by
  have h1 : a + b ≡ a + c [MOD m] := h
  have h2 := Nat.ModEq.add_left_cancel' a h1
  rwa [Nat.ModEq, Nat.mod_eq_of_lt hb, Nat.mod_eq_of_lt hc] at h2

/-- Without overlap, a cell takes one pixel at most. -/
theorem landing_inj {p : Config.Params} {n row0 col0 r r' k k' : Nat} {c : Nat × Nat}
    (hp : p.wrapMode = false ∨ (8 ≤ p.dispW ∧ n ≤ p.dispH)) (hr : r < n) (hr' : r' < n) (hk : k < 8) (hk' : k' < 8)
    (h : landing p row0 col0 r k = some c) (h' : landing p row0 col0 r' k' = some c) : r = r' ∧ k = k' := by
  unfold landing at h h'
  by_cases hw : p.wrapMode = true
  · simp only [hw, if_true, Option.some.injEq] at h h'
    rw [← h', Prod.mk.injEq] at h
    rcases hp with hp | hp
    · simp [hp] at hw
    · exact ⟨add_mod_inj (by omega) (by omega) h.1, add_mod_inj (by omega) (by omega) h.2⟩
  · simp only [hw, Bool.false_eq_true, if_false] at h h'
    split at h
    · split at h'
      · simp only [Option.some.injEq] at h h'
        rw [← h', Prod.mk.injEq] at h
        omega
      · cases h'
    · cases h

theorem mem_landings {s : State} {x y : Nibble} {h : Nat} {c : Nat × Nat} :
    c ∈ s.landings x y h ↔ ∃ r < h, ∃ k < 8, s.lit r k = true ∧ landing s.params (s.origin x y).1 (s.origin x y).2 r k = some c := by
  simp only [State.landings, List.mem_flatMap, List.mem_filterMap, List.mem_range]
  constructor
  · rintro ⟨r, hr, k, hk, h⟩
    split at h
    · next hl => exact ⟨r, hr, k, hk, hl, h⟩
    · cases h
  · rintro ⟨r, hr, k, hk, hl, h⟩
    exact ⟨r, hr, k, hk, by simp [hl, h]⟩

end Sys2Proof.Machine
end

