-- ==== Sys2Proof/Laws/Step.lean ====
section
/-! SUPPORT. What a step and what an instruction can do, once: every later proof about next states starts from these two
case lists. -/

namespace Sys2Proof.Machine

/-- A step that passes the check is `exec` of the decoded word on the advanced state. -/
theorem step_of_canFetch (s : State) (h : s.CanFetch) : step s = exec (decode (s.wordAt s.pc.toNat)) s.advance := by
  rcases runCycle_cases exec s with ⟨hr, _⟩ | ⟨_, hv, _⟩ | ⟨_, _, hs⟩
  · exact absurd hr h.1
  · exact absurd (h.2.symm.trans hv) (by decide)
  · exact hs

/-- The two ways a step reaches a next state. -/
theorem step_next_cases {s t : State} (h : step s = .next t) :
    (s.runState ≠ .halted ∧ pcValid s.pc = false ∧ t = s.takeFatal .invalidProgramCounter s.pc none) ∨
    (s.CanFetch ∧ exec (decode (s.wordAt s.pc.toNat)) s.advance = .next t) := by
  rcases runCycle_cases exec s with ⟨_, h'⟩ | ⟨hl, hv, h'⟩ | ⟨hl, hv, h'⟩
  · rw [step, h'] at h; cases h
  · rw [step, h'] at h; cases h; exact .inl ⟨hl, hv, rfl⟩
  · rw [step, h'] at h; exact .inr ⟨⟨hl, hv⟩, h⟩

/-- What the rows of a DRW leave: the blit its operands give (R140). -/
def drawBlit (x y n : Nibble) (s : State) : Blit :=
  blitRows s (operandReg s x % s.params.dispW) (operandReg s y % s.params.dispH) (List.range n.toNat) ⟨s.fb, 0#8⟩

/-- DRW, all of it: the new framebuffer, `VF` and result `Ok` where its reads are permitted, else the stop of R37. -/
theorem exec_drw_eq (x y n : Nibble) (s : State) :
    exec (.drw x y n) s =
      if s.Readable (.drw x y n) then
        .next (((s.setFb (drawBlit x y n s).fb).setReg flagReg (drawBlit x y n s).vf).ok)
      else .fault .unwrittenRead := by
  have hlt : n.toNat < 16 := n.isLt
  show drawSprite x y n.toNat (encode (.drw x y n)) s = _
  rcases drawSprite_cases x y n.toNat (encode (.drw x y n)) s with ⟨h, _⟩ | ⟨_, hr, h⟩ | ⟨_, hr, h⟩
  · omega
  · rw [h, if_pos ((drawReadable_iff x y n s).mp hr)]
    rfl
  · rw [h, if_neg fun hs => by simp [(drawReadable_iff x y n s).mpr hs] at hr]

/-- DRW completes where its reads are permitted. -/
theorem exec_drw (x y n : Nibble) (s : State) (h : s.Readable (.drw x y n)) :
    exec (.drw x y n) s = .next (((s.setFb (drawBlit x y n s).fb).setReg flagReg (drawBlit x y n s).vf).ok) := by
  rw [exec_drw_eq, if_pos h]

/-- ADD, all of it. -/
theorem exec_addImm_eq (x : Nibble) (v : Byte) (s : State) :
    exec (.addImm x v) s =
      if s.Readable (.addImm x v) then .next (s.setReg x (addTrunc (s.reg x) v)).ok else .fault .unwrittenRead := rfl

/-- The reads an instruction makes are permitted alike in states with the same bits and policy. -/
theorem readable_congr {s t : State} (hr : t.regWritten = s.regWritten) (hi : t.indexWritten = s.indexWritten)
    (hp : t.params.unwrittenRead = s.params.unwrittenRead) (i : Instr) : t.Readable i ↔ s.Readable i := by
  cases i <;> simp only [State.Readable, regReadable_congr hr hp, indexReadable_congr hi hp]

/-- Where `UNWRITTEN_READ` is `zero` every read is permitted (R37). -/
theorem readable_of_zero (s : State) (i : Instr) (h : s.params.unwrittenRead = .zero) : s.Readable i := by
  cases i <;> simp [State.Readable, State.regReadable, State.indexReadable, h]

/-! RET and CALL, case by case. -/

theorem exec_ret_empty (g : Nibble) (s : State) (h : s.sp = 0#8) :
    exec (.ret g) s = .next (s.takeFatal .stackUnderflow s.fetchAddr (some (encode (.ret g)))) := if_pos h

theorem exec_ret_pop (g : Nibble) (s : State) (w : Word) (h : s.sp ≠ 0#8) (hw : s.slot s.sp.toNat = some w) :
    exec (.ret g) s = .next ((s.setPc w).setSp (s.sp - 1)).ok := by
  refine (if_neg h).trans ?_
  rw [hw]

theorem exec_ret_absent (g : Nibble) (s : State) (h : s.sp ≠ 0#8) (hw : s.slot s.sp.toNat = none) :
    exec (.ret g) s = .fault .noStackSlot := by
  refine (if_neg h).trans ?_
  rw [hw]

theorem exec_call_full (a : Addr12) (s : State) (h : s.sp.toNat = 16) :
    exec (.call a) s = .next (s.takeFatal .stackOverflow s.fetchAddr (some (encode (.call a)))) := if_pos h

theorem exec_call_push (a : Addr12) (s : State) (h : s.sp.toNat < 16) :
    exec (.call a) s = .next ((s.push s.pc).setPc (operandNNN a)).ok :=
  (if_neg (show ¬ s.sp.toNat = 16 by omega)).trans (if_pos h)

theorem exec_call_absent (a : Addr12) (s : State) (h : 16 < s.sp.toNat) :
    exec (.call a) s = .fault .noStackSlot :=
  (if_neg (show ¬ s.sp.toNat = 16 by omega)).trans (if_neg (show ¬ s.sp.toNat < 16 by omega))

/-- Every next state an instruction can reach. -/
inductive ExecNext (s : State) : Instr → State → Prop where
  | cls (g) : ExecNext s (.cls g) (s.setFb []).ok
  | underflow (g) : s.sp = 0#8 →
      ExecNext s (.ret g) (s.takeFatal .stackUnderflow s.fetchAddr (some (encode (.ret g))))
  | ret (g) (w : Word) : s.sp ≠ 0#8 → s.slot s.sp.toNat = some w →
      ExecNext s (.ret g) ((s.setPc w).setSp (s.sp - 1)).ok
  | jp (a) : ExecNext s (.jp a) (s.setPc (operandNNN a)).ok
  | overflow (a) : s.sp.toNat = 16 →
      ExecNext s (.call a) (s.takeFatal .stackOverflow s.fetchAddr (some (encode (.call a))))
  | call (a) : s.sp.toNat < 16 → ExecNext s (.call a) ((s.push s.pc).setPc (operandNNN a)).ok
  | ldImm (x v) : ExecNext s (.ldImm x v) (s.setReg x v).ok
  | addImm (x v) : s.Readable (.addImm x v) → ExecNext s (.addImm x v) (s.setReg x (addTrunc (s.reg x) v)).ok
  | ldIndex (a) : ExecNext s (.ldIndex a) (s.setIndex (operandNNN a)).ok
  | drw (x y n) : s.Readable (.drw x y n) → ExecNext s (.drw x y n)
      (((s.setFb (drawBlit x y n s).fb).setReg flagReg (drawBlit x y n s).vf).ok)
  | unimplemented (i : Instr) : i.isUnimplemented = true → ExecNext s i (s.noteUnimplemented i)

/-- An instruction that answers a next state answers one of those. -/
theorem exec_next_cases {i : Instr} {s t : State} (h : exec i s = .next t) : ExecNext s i t := by
  cases i with
  | cls g => cases h; exact .cls g
  | ret g =>
    simp only [exec, execRet] at h
    split at h
    · next h0 => cases h; exact .underflow g h0
    · next h0 =>
      split at h
      · next w hw => cases h; exact .ret g w h0 hw
      · cases h
  | jp a => cases h; exact .jp a
  | call a =>
    simp only [exec, execCall] at h
    split at h
    · next h0 => cases h; exact .overflow a h0
    · split at h
      · next h1 => cases h; exact .call a h1
      · cases h
  | ldImm x v => cases h; exact .ldImm x v
  | addImm x v =>
    rw [exec_addImm_eq] at h
    split at h
    · next hr => cases h; exact .addImm x v hr
    · cases h
  | ldIndex a => cases h; exact .ldIndex a
  | drw x y n =>
    rw [exec_drw_eq] at h
    split at h
    · next hr => cases h; exact .drw x y n hr
    · cases h
  | unimpl0 | unimpl3 | unimpl4 | unimpl5 | unimpl8 | unimpl9 | unimplB | unimplC | unimplE | unimplF =>
    cases h; exact .unimplemented _ rfl

/-- No instruction is refused, and the only stops are those of R37 and of a stack slot that does not exist. -/
theorem exec_stop_cases (i : Instr) (s : State) :
    (∃ t, exec i s = .next t) ∨ (exec i s = .fault .unwrittenRead ∧ ¬ s.Readable i) ∨
    (exec i s = .fault .noStackSlot ∧ 16 < s.sp.toNat) := by
  cases i with
  | ret g =>
    by_cases h0 : s.sp = 0#8
    · exact .inl ⟨_, exec_ret_empty g s h0⟩
    · have h1 : 1 ≤ s.sp.toNat :=
        Nat.one_le_iff_ne_zero.mpr fun h => h0 (BitVec.eq_of_toNat_eq (by simpa using h))
      by_cases h2 : s.sp.toNat ≤ 16
      · exact .inl ⟨_, exec_ret_pop g s _ h0 (slot_exists s _ ⟨h1, h2⟩)⟩
      · have h3 : s.sp.toNat ≠ 0 := by omega
        have h4 : ¬ s.sp.toNat - 1 < 16 := by omega
        exact .inr (.inr ⟨exec_ret_absent g s h0 (by simp [State.slot, h3]; omega), by omega⟩)
  | call a =>
    rcases Nat.lt_trichotomy s.sp.toNat 16 with h | h | h
    · exact .inl ⟨_, exec_call_push a s h⟩
    · exact .inl ⟨_, exec_call_full a s h⟩
    · exact .inr (.inr ⟨exec_call_absent a s h, h⟩)
  | addImm x v =>
    by_cases h : s.Readable (.addImm x v)
    · exact .inl ⟨_, (exec_addImm_eq x v s).trans (if_pos h)⟩
    · exact .inr (.inl ⟨(exec_addImm_eq x v s).trans (if_neg h), h⟩)
  | drw x y n =>
    by_cases h : s.Readable (.drw x y n)
    · exact .inl ⟨_, exec_drw x y n s h⟩
    · exact .inr (.inl ⟨(exec_drw_eq x y n s).trans (if_neg h), h⟩)
  | cls | jp | ldImm | ldIndex => exact .inl ⟨_, rfl⟩
  | unimpl0 | unimpl3 | unimpl4 | unimpl5 | unimpl8 | unimpl9 | unimplB | unimplC | unimplE | unimplF =>
    exact .inl ⟨_, rfl⟩

/-- The framebuffer a DRW leaves is in canonical form and inside the display. -/
theorem drawBlit_wf (x y n : Nibble) (s : State) (hp : s.params.wf) (hf : Framebuffer.wf s.params s.fb) :
    Framebuffer.wf s.params (drawBlit x y n s).fb :=
  blitRows_wf s hp _ _ _ _ hf

/-- What a DRW leaves is its landings placed one after another on the display, from `VF` 0 (R140 to R148). -/
theorem drawBlit_eq_fold (x y n : Nibble) (s : State) (hb : Cells.Canonical false s.fb) :
    drawBlit x y n s = (s.landings x y n.toNat).foldl (place s.params) ⟨s.fb, 0#8⟩ :=
  blitRows_eq_fold s _ _ _ _ hb

/-- A run of the host's interface goes on from the next state. -/
theorem run_of_next (M : Host.Core) (k : Nat) (s t : M.State) (h : M.step s = .next t) :
    M.run (k + 1) s = M.run k t := by
  simp only [Host.Core.run, h]

end Sys2Proof.Machine
end

