-- ==== Sys2Proof/Laws/Driver.lean ====
section
/-! SUPPORT. What a host move and the runner can do, once: proofs about them start from these case lists. -/

namespace Sys2Proof.Machine

/-- Every rig a host move can lead to. -/
inductive DriveNext (m : Rig) : HostMove → Rig → Prop where
  | load (image) : m.started = false → imageFits m.core.params image = true →
      DriveNext m (.load image) { m with core := m.core.loadImage image }
  | writeByte (a v) : m.started = false →
      DriveNext m (.writeByte a v) { m with core := m.core.memWrite a.toNat v }
  | step (keys) (t : State) : Machine.step (m.core.setKeys keys) = .next t →
      DriveNext m (.step keys) { core := t, started := true, stepped := true }
  | writeTimer (which v) : m.started = true →
      DriveNext m (.writeTimer which v) { m with core := m.core.writeTimer which v }
  | setRunState (r) : m.started = true → m.mayEnter r = true →
      DriveNext m (.setRunState r) { m with core := m.core.setRunState r, stepped := false }
  | reset : DriveNext m .reset (Rig.construct m.core.params)

/-- A move that answers a next rig answers one of those. -/
theorem drive_next_cases {move : HostMove} {m m' : Rig} (h : drive move m = .next m') : DriveNext m move m' := by
  cases move with
  | load image =>
    simp only [drive] at h
    split at h
    · cases h
    · next hs =>
      split at h
      · next hf => cases h; exact .load image (by simpa using hs) hf
      · cases h
  | writeByte a v =>
    simp only [drive] at h
    split at h
    · cases h
    · next hs => cases h; exact .writeByte a v (by simpa using hs)
  | step keys =>
    simp only [drive, Rig.takeStep] at h
    split at h
    · next t ht => cases h; exact .step keys t ht
    · cases h
    · cases h
  | writeTimer which v =>
    simp only [drive] at h
    split at h
    · next hs => cases h; exact .writeTimer which v hs
    · cases h
  | setRunState r =>
    simp only [drive] at h
    split at h
    · cases h
    · next hs =>
      split at h
      · next hr => cases h; exact .setRunState r (by simpa using hs) hr
      · cases h
  | reset => cases h; exact .reset

/-- The step move, all of it (R199). -/
theorem takeStep_of_next {m : Rig} {keys : Vector Bool 16} {t : State}
    (h : step (m.core.setKeys keys) = .next t) :
    m.takeStep keys = .next { core := t, started := true, stepped := true } := by
  rw [Rig.takeStep, h]

theorem takeStep_of_fault {m : Rig} {keys : Vector Bool 16} {f : Fault}
    (h : step (m.core.setKeys keys) = .fault f) : m.takeStep keys = .fault f := by
  rw [Rig.takeStep, h]

/-- One move of the runner (R231). -/
theorem runHost_of_next {host : Nat → HostMove} {j : Nat} {m m' : Rig} (h : drive (host j) m = .next m') (fuel : Nat) :
    runHost host (fuel + 1) j m = ((host j).ending m').getD (runHost host fuel (j + 1) m') := by
  simp only [runHost, h]
  cases (host j).ending m' <;> rfl

/-- Everything that ends a run at a move (R229, R231). -/
theorem ending_cases {move : HostMove} {m : Rig} {e : RunEnd} (h : move.ending m = some e) :
    (∃ keys k, move = .step keys ∧ m.core.result = .fatal k ∧ e = .fatal k m) ∨
    (move = .setRunState .halted ∧ e = .quit m) := by
  cases move with
  | step keys =>
    simp only [HostMove.ending] at h
    split at h
    · next k hk => cases h; exact .inl ⟨keys, k, rfl, hk, rfl⟩
    · cases h
    · cases h
  | setRunState r => cases r <;> cases h; exact .inr ⟨rfl, rfl⟩
  | load | writeByte | writeTimer | reset => cases h

end Sys2Proof.Machine
end

