-- ==== Sys2Proof/Laws/Fields.lean ====
section
/-! SUPPORT. The fields of a packed word, and what the two masks of the opcode map keep of a word: the decoder's
helpers unfolded once. -/

namespace Sys2Proof

/-! ### Bits of a packed word -/

theorem getElem_packNNN (f : Nibble) (nnn : Addr12) (i : Nat) (h : i < 16) :
    (packNNN f nnn)[i] = if h' : i < 12 then nnn[i] else f[i - 12] :=
  BitVec.getElem_append (x := f) (y := nnn) h

theorem getElem_joinXNN (x : Nibble) (nn : Byte) (i : Nat) (h : i < 12) :
    (x ++ nn : BitVec 12)[i] = if h' : i < 8 then nn[i] else x[i - 8] :=
  BitVec.getElem_append (x := x) (y := nn) h

theorem getElem_joinYN (y n : Nibble) (i : Nat) (h : i < 8) :
    (y ++ n : BitVec 8)[i] = if h' : i < 4 then n[i] else y[i - 4] :=
  BitVec.getElem_append (x := y) (y := n) h

/-! ### Fields of a packed word -/

theorem fieldF_packNNN (f : Nibble) (nnn : Addr12) : fieldF (packNNN f nnn) = f := by
  ext i hi
  have h : 12 + i < 16 := by omega
  simp only [fieldF, BitVec.getElem_extractLsb']
  rw [BitVec.getLsbD_eq_getElem h, getElem_packNNN]
  simp

theorem fieldNNN_packNNN (f : Nibble) (nnn : Addr12) : fieldNNN (packNNN f nnn) = nnn := by
  ext i hi
  have h : 0 + i < 16 := by omega
  simp only [fieldNNN, BitVec.getElem_extractLsb']
  rw [BitVec.getLsbD_eq_getElem h, getElem_packNNN]
  simp [hi]

theorem fieldX_packNNN (f x : Nibble) (nn : Byte) : fieldX (packNNN f (x ++ nn)) = x := by
  ext i hi
  have h : 8 + i < 16 := by omega
  have h' : 8 + i < 12 := by omega
  simp only [fieldX, BitVec.getElem_extractLsb']
  rw [BitVec.getLsbD_eq_getElem h, getElem_packNNN, dif_pos h', getElem_joinXNN]
  simp

theorem fieldNN_packNNN (f x : Nibble) (nn : Byte) : fieldNN (packNNN f (x ++ nn)) = nn := by
  ext i hi
  have h : 0 + i < 16 := by omega
  have h' : 0 + i < 12 := by omega
  simp only [fieldNN, BitVec.getElem_extractLsb']
  rw [BitVec.getLsbD_eq_getElem h, getElem_packNNN, dif_pos h', getElem_joinXNN]
  simp [hi]

theorem fieldY_packNNN (f x y n : Nibble) : fieldY (packNNN f (x ++ (y ++ n : BitVec 8))) = y := by
  ext i hi
  have h : 4 + i < 16 := by omega
  have h1 : 4 + i < 12 := by omega
  have h2 : 4 + i < 8 := by omega
  simp only [fieldY, BitVec.getElem_extractLsb']
  rw [BitVec.getLsbD_eq_getElem h, getElem_packNNN, dif_pos h1, getElem_joinXNN, dif_pos h2, getElem_joinYN]
  simp

theorem fieldN_packNNN (f x y n : Nibble) : fieldN (packNNN f (x ++ (y ++ n : BitVec 8))) = n := by
  ext i hi
  have h : 0 + i < 16 := by omega
  have h1 : 0 + i < 12 := by omega
  have h2 : 0 + i < 8 := by omega
  simp only [fieldN, BitVec.getElem_extractLsb']
  rw [BitVec.getLsbD_eq_getElem h, getElem_packNNN, dif_pos h1, getElem_joinXNN, dif_pos h2, getElem_joinYN]
  simp [hi]

/-- The low byte of a word is that of its 12-bit address. -/
theorem fieldNN_packNNN_setWidth (f : Nibble) (nnn : Addr12) : fieldNN (packNNN f nnn) = nnn.setWidth 8 := by
  ext i hi
  have h : 0 + i < 16 := by omega
  have h' : 0 + i < 12 := by omega
  have h'' : i < 12 := by omega
  simp only [fieldNN, BitVec.getElem_extractLsb', BitVec.getElem_setWidth]
  rw [BitVec.getLsbD_eq_getElem h, getElem_packNNN, dif_pos h', BitVec.getLsbD_eq_getElem h'']
  simp

/-! ### A word from its fields -/

theorem packNNN_fields (w : Word) : packNNN (fieldF w) (fieldNNN w) = w := by
  ext i hi
  rw [getElem_packNNN]
  split
  · simp [fieldNNN, BitVec.getElem_extractLsb', BitVec.getLsbD_eq_getElem hi]
  · have : 12 + (i - 12) = i := by omega
    simp [fieldF, BitVec.getElem_extractLsb', this, BitVec.getLsbD_eq_getElem hi]

theorem fieldNNN_eq_XNN (w : Word) : fieldNNN w = (fieldX w ++ fieldNN w : BitVec 12) := by
  ext i hi
  have h : i < 16 := by omega
  rw [getElem_joinXNN]
  split
  · simp [fieldNNN, fieldNN, BitVec.getElem_extractLsb']
  · have : 8 + (i - 8) = i := by omega
    simp [fieldNNN, fieldX, BitVec.getElem_extractLsb', this]

theorem fieldNN_eq_YN (w : Word) : fieldNN w = (fieldY w ++ fieldN w : BitVec 8) := by
  ext i hi
  have h : i < 16 := by omega
  rw [getElem_joinYN]
  split
  · simp [fieldNN, fieldN, BitVec.getElem_extractLsb']
  · have : 4 + (i - 4) = i := by omega
    simp [fieldNN, fieldY, BitVec.getElem_extractLsb', this]

/-! ### What the masks keep -/

theorem and_familyMask (w : Word) : w &&& 0xF000#16 = packNNN (fieldF w) 0#12 := by
  ext i hi
  rw [getElem_packNNN]
  simp only [fieldF, BitVec.getElem_and]
  interval_cases i <;> simp

theorem and_exactMask (w : Word) : w &&& 0xF0FF#16 = packNNN (fieldF w) (0#4 ++ fieldNN w) := by
  ext i hi
  rw [getElem_packNNN]
  simp only [fieldF, fieldNN, BitVec.getElem_and, getElem_joinXNN]
  interval_cases i <;> simp

/-- A family row of the opcode map matches the words of its family. -/
theorem familyRow_matches (m : String) (c w : Word) (hc : packNNN (fieldF c) 0#12 = c) :
    OpcodeRow.matches ⟨m, c, 0xF000#16⟩ w = (fieldF w == fieldF c) := by
  simp only [OpcodeRow.matches]
  rw [and_familyMask, Bool.eq_iff_iff, beq_iff_eq, beq_iff_eq, ← hc, fieldF_packNNN]
  exact ⟨fun h => by simpa [fieldF_packNNN] using congrArg fieldF h, fun h => by rw [h]⟩

/-- An exact row of family 0 matches the words of family 0 with its low byte. -/
theorem exactRow_matches (m : String) (c w : Word) (hc : packNNN 0#4 (0#4 ++ fieldNN c) = c) :
    OpcodeRow.matches ⟨m, c, 0xF0FF#16⟩ w = (fieldF w == 0#4 && fieldNN w == fieldNN c) := by
  simp only [OpcodeRow.matches]
  rw [and_exactMask, Bool.eq_iff_iff, beq_iff_eq, Bool.and_eq_true, beq_iff_eq, beq_iff_eq, ← hc, fieldNN_packNNN]
  constructor
  · intro h
    exact ⟨by simpa [fieldF_packNNN] using congrArg fieldF h, by simpa [fieldNN_packNNN] using congrArg fieldNN h⟩
  · rintro ⟨h1, h2⟩
    rw [h1, h2]

/-- A word outside family 0 selects its family's row. -/
theorem selectRow_of_family (w : Word) (h : fieldF w ≠ 0#4) :
    selectRow w = (opcodeMap.drop 3).find? (fun r => fieldF w == fieldF r.pattern) := by
  have hb : (fieldF w == 0#4) = false := by simpa using h
  have e1 := exactRow_matches "CLS" 0x00E0#16 w (by decide)
  have e2 := exactRow_matches "RET" 0x00EE#16 w (by decide)
  have e3 := familyRow_matches "UNIMPL.0" 0x0000#16 w (by decide)
  have e3' : OpcodeRow.matches ⟨"UNIMPL.0", 0x0000#16, 0xF000#16⟩ w = false := e3.trans hb
  have hrest : selectRow w = (opcodeMap.drop 3).find? (·.matches w) := by
    simp only [selectRow, opcodeMap, List.cons_append, List.nil_append, List.drop_succ_cons, List.drop_zero]
    rw [List.find?_cons, List.find?_cons, List.find?_cons, e1, e2, e3', hb]
    simp only [Bool.false_and]
  rw [hrest]
  refine List.find?_congr fun r hr => ?_
  have hall : ∀ r ∈ opcodeMap.drop 3, r.mask = 0xF000#16 ∧ packNNN (fieldF r.pattern) 0#12 = r.pattern := by decide
  obtain ⟨hm, hp⟩ := hall r hr
  obtain ⟨m, c, k⟩ := r
  simp only at hm hp
  subst hm
  exact familyRow_matches m c w hp

/-- Which row a word of family 0 selects (R74). -/
theorem selectRow_of_family0 (w : Word) (h : fieldF w = 0#4) :
    (selectRow w).map OpcodeRow.mnemonic =
      some (if fieldNN w = 0xE0#8 then "CLS" else if fieldNN w = 0xEE#8 then "RET" else "UNIMPL.0") := by
  have e1 := exactRow_matches "CLS" 0x00E0#16 w (by decide)
  have e2 := exactRow_matches "RET" 0x00EE#16 w (by decide)
  have e3 := familyRow_matches "UNIMPL.0" 0x0000#16 w (by decide)
  have f1 : fieldNN 0x00E0#16 = 0xE0#8 := by decide
  have f2 : fieldNN 0x00EE#16 = 0xEE#8 := by decide
  have f3 : fieldF 0x0000#16 = 0x0#4 := by decide
  simp only [selectRow, opcodeMap, List.cons_append, List.nil_append]
  rw [List.find?_cons, List.find?_cons, List.find?_cons, e1, e2, e3, f1, f2, f3, h]
  by_cases h1 : fieldNN w = 0xE0#8
  · simp [h1]
  · by_cases h2 : fieldNN w = 0xEE#8
    · simp [h2]
    · have b1 : (fieldNN w == 0xE0#8) = false := by simpa using h1
      have b2 : (fieldNN w == 0xEE#8) = false := by simpa using h2
      simp [h1, h2, b1, b2]

end Sys2Proof
end

