-- ==== Sys2Proof/Laws/PerInstr.lean ====
section
/-! SUPPORT. Statements for all instructions, as one lemma per constructor. -/

namespace Sys2Proof.Laws.EncodesInItsRow

/-- The word of a well-formed instruction selects its own row of the opcode map (R74, R75). -/
def Statement (i : Instr) : Prop :=
  i.wellFormed = true → (selectRow (encode i)).map OpcodeRow.mnemonic = some i.mnemonic

/-- The row of a word outside family 0 is the row of its family nibble. -/
theorem mnemonic_of_packNNN (f : Nibble) (nnn : Addr12) (m : String) (h : f ≠ 0#4)
    (hm : ((opcodeMap.drop 3).find? (fun r => f == fieldF r.pattern)).map OpcodeRow.mnemonic = some m) :
    (selectRow (packNNN f nnn)).map OpcodeRow.mnemonic = some m := by
  rwa [selectRow_of_family _ (by rwa [fieldF_packNNN]), fieldF_packNNN]

theorem cls (ignored : Nibble) : Statement (.cls ignored) := fun _ => by
  show (selectRow (packNNN 0x0#4 (ignored ++ 0xE0#8))).map OpcodeRow.mnemonic = some "CLS"
  rw [selectRow_of_family0 _ (fieldF_packNNN _ _), fieldNN_packNNN, if_pos rfl]

theorem ret (ignored : Nibble) : Statement (.ret ignored) := fun _ => by
  show (selectRow (packNNN 0x0#4 (ignored ++ 0xEE#8))).map OpcodeRow.mnemonic = some "RET"
  rw [selectRow_of_family0 _ (fieldF_packNNN _ _), fieldNN_packNNN, if_neg (by decide), if_pos rfl]

theorem unimpl0 (nnn : Addr12) : Statement (.unimpl0 nnn) := fun h => by
  have h' : nnn.setWidth 8 ≠ 0xE0#8 ∧ nnn.setWidth 8 ≠ 0xEE#8 := by
    simpa only [Instr.wellFormed, Bool.and_eq_true, bne_iff_ne] using h
  show (selectRow (packNNN 0x0#4 nnn)).map OpcodeRow.mnemonic = some "UNIMPL.0"
  rw [selectRow_of_family0 _ (fieldF_packNNN _ _), fieldNN_packNNN_setWidth, if_neg h'.1, if_neg h'.2]

theorem jp (nnn : Addr12) : Statement (.jp nnn) := fun _ =>
  mnemonic_of_packNNN 0x1#4 nnn "JP" (by decide) (by decide)

theorem call (nnn : Addr12) : Statement (.call nnn) := fun _ =>
  mnemonic_of_packNNN 0x2#4 nnn "CALL" (by decide) (by decide)

theorem unimpl3 (x y n : Nibble) : Statement (.unimpl3 x y n) := fun _ =>
  mnemonic_of_packNNN 0x3#4 (x ++ (y ++ n : BitVec 8)) "UNIMPL.3" (by decide) (by decide)

theorem unimpl4 (x y n : Nibble) : Statement (.unimpl4 x y n) := fun _ =>
  mnemonic_of_packNNN 0x4#4 (x ++ (y ++ n : BitVec 8)) "UNIMPL.4" (by decide) (by decide)

theorem unimpl5 (x y n : Nibble) : Statement (.unimpl5 x y n) := fun _ =>
  mnemonic_of_packNNN 0x5#4 (x ++ (y ++ n : BitVec 8)) "UNIMPL.5" (by decide) (by decide)

theorem ldImm (x : Nibble) (nn : Byte) : Statement (.ldImm x nn) := fun _ =>
  mnemonic_of_packNNN 0x6#4 (x ++ nn) "LD_Vx_NN" (by decide) (by decide)

theorem addImm (x : Nibble) (nn : Byte) : Statement (.addImm x nn) := fun _ =>
  mnemonic_of_packNNN 0x7#4 (x ++ nn) "ADD_Vx_NN" (by decide) (by decide)

theorem unimpl8 (x y n : Nibble) : Statement (.unimpl8 x y n) := fun _ =>
  mnemonic_of_packNNN 0x8#4 (x ++ (y ++ n : BitVec 8)) "UNIMPL.8" (by decide) (by decide)

theorem unimpl9 (x y n : Nibble) : Statement (.unimpl9 x y n) := fun _ =>
  mnemonic_of_packNNN 0x9#4 (x ++ (y ++ n : BitVec 8)) "UNIMPL.9" (by decide) (by decide)

theorem ldIndex (nnn : Addr12) : Statement (.ldIndex nnn) := fun _ =>
  mnemonic_of_packNNN 0xA#4 nnn "LD_I_NNN" (by decide) (by decide)

theorem unimplB (x y n : Nibble) : Statement (.unimplB x y n) := fun _ =>
  mnemonic_of_packNNN 0xB#4 (x ++ (y ++ n : BitVec 8)) "UNIMPL.B" (by decide) (by decide)

theorem unimplC (x y n : Nibble) : Statement (.unimplC x y n) := fun _ =>
  mnemonic_of_packNNN 0xC#4 (x ++ (y ++ n : BitVec 8)) "UNIMPL.C" (by decide) (by decide)

theorem drw (x y n : Nibble) : Statement (.drw x y n) := fun _ =>
  mnemonic_of_packNNN 0xD#4 (x ++ (y ++ n : BitVec 8)) "DRW_Vx_Vy_N" (by decide) (by decide)

theorem unimplE (x y n : Nibble) : Statement (.unimplE x y n) := fun _ =>
  mnemonic_of_packNNN 0xE#4 (x ++ (y ++ n : BitVec 8)) "UNIMPL.E" (by decide) (by decide)

theorem unimplF (x y n : Nibble) : Statement (.unimplF x y n) := fun _ =>
  mnemonic_of_packNNN 0xF#4 (x ++ (y ++ n : BitVec 8)) "UNIMPL.F" (by decide) (by decide)

end Sys2Proof.Laws.EncodesInItsRow
end

