-- ==== Sys2Proof/Tests/Slice0.lean ====
section
/-! SUPPORT. Tests: words written out from the encodings of R74, one-step vectors of spec/95_test_vectors.md (named in
each comment), the well-formedness smoke test, and a witness for the hypotheses of every obligation that has some. -/

namespace Sys2Proof.Tests

open Sys2Proof.Machine

/-! ### Helpers -/

/-- A reset instance with a display of its own (the vectors' `DISP_W`, `DISP_H`, `WRAP_MODE`; `ENTRY` 0x200). -/
def instanceOf (w h : Nat) (wrap : Bool) : State :=
  State.resetWith { dispW := w, dispH := h, wrapMode := wrap, entry := 0x200#16, timerHz := 60, unwrittenRead := .zero }

/-- A reset instance with `UNWRITTEN_READ = fault` (R37). -/
def strict : State := State.resetWith { Config.Params.simulator with unwrittenRead := .fault }

/-- One step with `word` placed at `pc`. -/
def run (s : State) (word : Nat) : Option State := nextState? (step (s.withFetchWord 16 word))

/-- The framebuffer with the listed cells on, by flat index `y * DISP_W + x` in rising order. -/
def lit (cells : List Nat) : Framebuffer := cells.map fun i => (i, true)

/-- Bytes placed from address `a` on. -/
def withBytes (s : State) (a : Nat) (bs : List Byte) : State := s.writeBytes a bs

theorem next_of_isSome {o : Outcome} (h : (nextState? o).isSome = true) : ∃ t, o = .next t := by
  cases o with
  | next t => exact ⟨t, rfl⟩
  | fault _ => cases h
  | refused _ => cases h

/-! ### Well-formedness: the one check, and terms it refuses -/

theorem test_wellFormed_refuses_cls_word : (Instr.unimpl0 0x5E0).wellFormed = false := by decide
theorem test_wellFormed_refuses_ret_word : (Instr.unimpl0 0x0EE).wellFormed = false := by decide
theorem test_wellFormed_accepts : (Instr.unimpl0 0xE00).wellFormed = true ∧ (Instr.cls 5).wellFormed = true := by decide

/-! ### Decoding: a word of every row, written out from its encoding (R71, R74) -/

/-- `0000 xxxx 1110 0000`, x = 5 (vector CL-2). -/
theorem test_decode_cls : decode 0b0000010111100000 = .cls 5 := by decide
/-- `0000 xxxx 1110 1110`, x = F (vector RT-4). -/
theorem test_decode_ret : decode 0b0000111111101110 = .ret 0xF := by decide
/-- `0000 nnnn nnnn nnnn`, low byte E1 (vector UN-3). -/
theorem test_decode_unimpl0 : decode 0b0000000011100001 = .unimpl0 0x0E1 := by decide
/-- `0001 nnnn nnnn nnnn`. -/
theorem test_decode_jp : decode 0b0001101010111100 = .jp 0xABC := by decide
/-- `0010 nnnn nnnn nnnn`. -/
theorem test_decode_call : decode 0b0010001100000000 = .call 0x300 := by decide
/-- `0011 xxxx yyyy nnnn`: fields X = 1, Y = 2, N = 4. -/
theorem test_decode_unimpl3 : decode 0b0011000100100100 = .unimpl3 1 2 4 := by decide
theorem test_decode_unimpl4 : decode 0b0100000100100100 = .unimpl4 1 2 4 := by decide
theorem test_decode_unimpl5 : decode 0b0101000100100100 = .unimpl5 1 2 4 := by decide
/-- `0110 xxxx kkkk kkkk`: register 5, not 6 (source scenario S1). -/
theorem test_decode_ldImm : decode 0b0110010101100101 = .ldImm 5 0x65 := by decide
/-- `0111 xxxx kkkk kkkk`. -/
theorem test_decode_addImm : decode 0b0111010100000101 = .addImm 5 0x05 := by decide
theorem test_decode_unimpl8 : decode 0b1000000100100100 = .unimpl8 1 2 4 := by decide
theorem test_decode_unimpl9 : decode 0b1001000100100100 = .unimpl9 1 2 4 := by decide
/-- `1010 nnnn nnnn nnnn`. -/
theorem test_decode_ldIndex : decode 0b1010001000100000 = .ldIndex 0x220 := by decide
theorem test_decode_unimplB : decode 0b1011000100100100 = .unimplB 1 2 4 := by decide
theorem test_decode_unimplC : decode 0b1100000100100100 = .unimplC 1 2 4 := by decide
/-- `1101 xxxx yyyy nnnn`. -/
theorem test_decode_drw : decode 0b1101000100101111 = .drw 1 2 0xF := by decide
theorem test_decode_unimplE : decode 0b1110000100100100 = .unimplE 1 2 4 := by decide
theorem test_decode_unimplF : decode 0b1111000100100100 = .unimplF 1 2 4 := by decide

/-- Family 0 at the edges of the two exact rows: DF, E1, ED, EF are neither CLS nor RET. -/
theorem test_decode_family0_edges :
    decode 0x0FDF = .unimpl0 0xFDF ∧ decode 0x0FED = .unimpl0 0xFED ∧ decode 0x0FEF = .unimpl0 0xFEF ∧
    decode 0x00E0 = .cls 0 ∧ decode 0x00EE = .ret 0 := by decide

/-- Encoding, from R78's table of syntax and words. -/
theorem test_encode :
    encode (.cls 0) = 0x00E0#16 ∧ encode (.ret 0) = 0x00EE#16 ∧ encode (.jp 0x234) = 0x1234#16 ∧
    encode (.ldImm 0xA 0x11) = 0x6A11#16 ∧ encode (.drw 0xD 0x1 0x2) = 0xDD12#16 ∧
    encode (.unimpl8 0 1 4) = 0x8014#16 := by decide

/-- Bytes in memory order: 12 34 is the word 0x1234 (vector FD-7); one byte is no instruction. -/
theorem test_decode_bytes :
    decodeBytes [0x12, 0x34, 0x56] = .ok (.jp 0x234, [0x56]) ∧ decodeBytes [0x12] = .error .truncated :=
  ⟨rfl, rfl⟩

/-- The table numbers bit 0 as the least significant bit of the word. -/
theorem test_decodeTableWord : decodeTableWord 16 0x6565 = some (.ldImm 5 0x65) := by decide

/-! ### One-step vectors -/

/-- FD-3: at 0x0FFE the advance gives 0x1000, with no wrap. -/
theorem test_fetch_last_word :
    (run (State.reset.setPc 0xFFE) 0x6001).map (fun t => (t.reg 0, t.pc, t.result)) = some (1, 0x1000, .ok) := by decide
/-- S3, FD-4: 0x0FFF fails before any memory is read. -/
theorem test_fetch_bad_pc :
    (nextState? (step (State.reset.setPc 0xFFF))).map (fun t => (t.pc, t.runState, t.diag, t.result)) =
      some (0xFFF, .halted, [⟨.fatal .invalidProgramCounter, 0xFFF, none⟩], .fatal .invalidProgramCounter) := by decide
/-- FD-8. -/
theorem test_halted_no_step : step (State.reset.setRunState .halted) = .fault .haltedNoStep := rfl
/-- FD-10: a Paused machine steps all the same. -/
theorem test_paused_step :
    (run (State.reset.setRunState .paused) 0x6012).map (fun t => (t.reg 0, t.runState)) = some (0x12, .paused) := by decide

/-- CL-1. -/
theorem test_cls :
    (run ((State.reset.setFb (lit [0, 327, 2047])).setReg 15 0x77) 0x00E0).map (fun t => (t.fb, t.reg 15, t.pc)) =
      some ([], 0x77, 0x202) := by decide
/-- CL-2: bits 11 to 8 ignored, no event. -/
theorem test_cls_ignored_bits :
    (run (State.reset.setFb (lit [5])) 0x05E0).map (fun t => (t.fb, t.diag)) = some ([], []) := by decide

/-- RT-4: the second of two return addresses, the popped slot kept. -/
theorem test_ret :
    (run ((State.reset.setSp 2).setSlot 2 0x400) 0x0FEE).map (fun t => (t.pc, t.sp, t.slot 2, t.result)) =
      some (0x400, 1, some 0x400, .ok) := by decide
/-- RT-2. -/
theorem test_ret_underflow :
    (run (State.reset.setPc 0x206) 0x00EE).map (fun t => (t.pc, t.sp, t.runState, t.diag)) =
      some (0x208, 0, .halted, [⟨.fatal .stackUnderflow, 0x206, some 0x00EE⟩]) := by decide

/-- JP-1. -/
theorem test_jp : (run State.reset 0x1ABC).map (fun t => (t.pc, t.result)) = some (0xABC, .ok) := by decide
/-- JP-3: the step after a jump to 0xFFF faults. -/
theorem test_jp_then_fault :
    ((run State.reset 0x1FFF).bind fun t => nextState? (step t)).map (fun t => (t.pc, t.result)) =
      some (0xFFF, .fatal .invalidProgramCounter) := by decide

/-- CA-2: the 16th nested call succeeds. -/
theorem test_call :
    (run (State.reset.setSp 15) 0x2300).map (fun t => (t.sp, t.slot 16, t.slot 15, t.pc)) =
      some (16, some 0x202, some 0, 0x300) := by decide
/-- CA-3: the 17th does not. -/
theorem test_call_overflow :
    (run (State.reset.setSp 16) 0x2300).map (fun t => (t.sp, t.slot 16, t.pc, t.runState, t.diag)) =
      some (16, some 0, 0x202, .halted, [⟨.fatal .stackOverflow, 0x200, some 0x2300⟩]) := by decide

/-- LD-2: VF is an ordinary destination. -/
theorem test_ldImm : (run State.reset 0x6FFF).map (fun t => (t.reg 15, t.reg 14)) = some (0xFF, 0) := by decide
/-- AD-2: the sum wraps, VF is no carry. -/
theorem test_addImm :
    (run ((State.reset.setReg 3 0xFF).setReg 15 0x55) 0x7301).map (fun t => (t.reg 3, t.reg 15)) =
      some (0x00, 0x55) := by decide
/-- AD-4: VF as the destination takes the truncated sum. -/
theorem test_addImm_flag_register :
    (run (State.reset.setReg 15 0xF0) 0x7F20).map (fun t => t.reg 15) = some 0x10 := by decide
/-- R37: with `UNWRITTEN_READ = fault` a read of a register nothing has written ends the run, a written one is read. -/
theorem test_unwritten_read :
    step (strict.withFetchWord 16 0x7301) = .fault .unwrittenRead ∧
    step ((strict.setReg 0 0).withFetchWord 16 0xD001) = .fault .unwrittenRead ∧
    (run strict 0x6305).map (fun t => t.regReadable 3) = some true ∧
    (run (strict.setReg 3 0xFF) 0x7301).map (fun t => t.reg 3) = some 0 := ⟨rfl, rfl, by decide, by decide⟩
/-- LI-2. -/
theorem test_ldIndex : (run (State.reset.setIndex 0x123) 0xAFFF).map (fun t => (t.index, t.pc)) = some (0xFFF, 0x202) := by
  decide

/-- XOR and collision: S2 (one row of 0xA5, VF was 0x33), DR-13 (a collision in row 0 stays recorded through row 1),
DR-12 (two pixels of one row on one column). -/
theorem test_drw_xor_and_flag :
    (run (((withBytes State.reset 0x220 [0xA5]).setIndex 0x220).setReg 15 0x33) 0xD001).map
      (fun t => (t.fb, t.reg 15, t.result)) = some (lit [0, 2, 5, 7], 0, .ok) ∧
    (run (((withBytes State.reset 0x300 [0x80, 0x01]).setIndex 0x300).setFb (lit [0])) 0xD012).map
      (fun t => (t.fb, t.reg 15)) = some (lit [71], 1) ∧
    (run ((withBytes (instanceOf 4 32 true) 0x300 [0xFF]).setIndex 0x300) 0xD001).map
      (fun t => (t.fb, t.reg 15)) = some ([], 1) := by decide
/-- Placement: DR-5 and DR-6 (wrap and clip at the corner), DR-9 (the origin uses VF from before the clear), DR-11
(sprite addresses wrap, `I` is unchanged). -/
theorem test_drw_placement :
    (run ((((withBytes (instanceOf 64 32 true) 0x300 [0xC0, 0xC0]).setIndex 0x300).setReg 0 63).setReg 1 31) 0xD012).map
      (fun t => (t.fb, t.reg 15)) = some (lit [0, 63, 1984, 2047], 0) ∧
    (run ((((withBytes State.reset 0x300 [0xC0, 0xC0]).setIndex 0x300).setReg 0 63).setReg 1 31) 0xD012).map
      (fun t => (t.fb, t.reg 15)) = some (lit [2047], 0) ∧
    (run (((withBytes State.reset 0x300 [0x80]).setIndex 0x300).setReg 15 5) 0xDF11).map
      (fun t => (t.fb, t.reg 15)) = some (lit [5], 0) ∧
    (run ((withBytes (withBytes State.reset 0xFFF [0x80]) 0 [0x40]).setIndex 0xFFF) 0xD002).map
      (fun t => (t.fb, t.index, t.result)) = some (lit [0, 65], 0xFFF, .ok) := by decide

/-- UN-4: no skip. -/
theorem test_unimpl3 : (run State.reset 0x3000).map (fun t => (t.pc, t.diag, t.result)) =
    some (0x202, [⟨.unimplemented, 0x200, some 0x3000⟩], .ok) := by decide
/-- UN-1: no classic ADD Vx, Vy. -/
theorem test_unimpl8 :
    (run ((State.reset.setReg 0 0xFF).setReg 1 1) 0x8014).map (fun t => (t.reg 0, t.reg 15, t.diag)) =
      some (0xFF, 0, [⟨.unimplemented, 0x200, some 0x8014⟩]) := by decide
/-- FD-9. -/
theorem test_unimpl0 : (run (State.reset.setPc 0) 0x0000).map (fun t => (t.pc, t.diag)) =
    some (2, [⟨.unimplemented, 0, some 0x0000⟩]) := by decide
/-- UN-5 and UN-10: no store, no key wait. -/
theorem test_unimplF : (run (State.reset.setIndex 0x300) 0xF055).map (fun t => (t.index, t.byteAt 0x300, t.pc)) =
    some (0x300, 0, 0x202) ∧ (run State.reset 0xF00A).map (fun t => t.pc) = some 0x202 := by decide
/-- UN-6: key 0 pressed, no skip. -/
theorem test_unimplE : (run (State.reset.setKeys (Vector.replicate 16 true)) 0xE09E).map (fun t => t.pc) = some 0x202 := by
  decide
/-- UN-8 and the other families whose classic forms move `pc`. -/
theorem test_unimpl_no_branch :
    (run State.reset 0xB200).map (fun t => t.pc) = some 0x202 ∧
    (run State.reset 0x4001).map (fun t => t.pc) = some 0x202 ∧
    (run State.reset 0x5000).map (fun t => t.pc) = some 0x202 ∧
    (run (State.reset.setReg 1 1) 0x9010).map (fun t => t.pc) = some 0x202 := by
  decide
/-- UN-7: no random value. -/
theorem test_unimplC : (run (State.reset.setReg 0 0x5A) 0xC0FF).map (fun t => t.reg 0) = some 0x5A := by decide

/-- The reset state of R36 with the vectors' parameters. -/
theorem test_reset : State.reset.pc = 0x200 ∧ State.reset.sp = 0 ∧ State.reset.runState = .running ∧
    State.reset.fb = [] ∧ State.reset.mem = [] := by decide

/-! ### Witnesses: states and operands that meet the hypotheses of each obligation together -/

theorem witness_DecodeOfEncode :
    (Instr.unimpl0 0x0E1).wellFormed = true ∧ (Instr.drw 15 0 15).wellFormed = true := by decide

/-- The first and the last address a word can be fetched from. -/
theorem witness_StepRunsDecoded :
    ([0x000#16, 0xFFE#16].Forall fun a => State.CanFetch ((State.reset.setPc a).withFetchWord 16 0x6565)) ∧
    ([0x000#16, 0xFFE#16].Forall fun a =>
      ((State.reset.setPc a).withFetchWord 16 0x6565).byteAt a.toNat = 0x65 ∧
      ((State.reset.setPc a).withFetchWord 16 0x6565).byteAt (a.toNat + 1) = 0x65) ∧
    decodeBytes [0x65, 0x65] = .ok (.ldImm 5 0x65, []) := ⟨by decide, by decide, rfl⟩

theorem witness_InvalidPcFaults : [0x001#16, 0x201#16, 0xFFF#16, 0x1000#16, 0xFFFE#16].Forall fun a =>
    (State.reset.setPc a).runState ≠ .halted ∧ ¬ (a.toNat < 4096 - 1 ∧ a.toNat % 2 = 0) := by decide
theorem witness_InvalidPcFaults_valid : pcValid 0x000 = true ∧ pcValid 0xFFE = true ∧ pcValid 0x1000 = false := by decide

theorem witness_HaltedHasNoStep : (State.reset.setRunState .halted).runState = .halted := by decide

theorem witness_FetchIsBigEndianOrAddressFault :
    ([0x001#16, 0xFFF#16, 0x1000#16].Forall fun a => a.toNat % 2 = 1 ∨ a.toNat + 1 ≥ 4096) ∧
    ([0x000#16, 0xFFE#16].Forall fun a => ¬ (a.toNat % 2 = 1 ∨ a.toNat + 1 ≥ 4096)) := by decide

/-- For every obligation on a step that answers a next state; `witness_step_cases` gives the further cases. -/
theorem witness_step_next : ∃ t, step State.reset = .next t := next_of_isSome (by decide)

theorem witness_PcAdvancesByTwo : [0x000#16, 0xFFE#16].Forall fun a =>
    State.CanFetch (State.reset.setPc a) ∧ (decode ((State.reset.setPc a).wordAt a.toNat)).writesPc = false := by decide
/-- At an ADD and at a DRW, whose reads R37 names: every read is permitted at reset. -/
theorem witness_PcAdvancesByTwo_reads :
    let s := State.reset.withFetchWord 16 0x7301
    let s' := State.reset.withFetchWord 16 0xD015
    (s.CanFetch ∧ decode (s.wordAt 0x200) = .addImm 3 1 ∧ s.Readable (decode (s.wordAt 0x200))) ∧
    (s'.CanFetch ∧ decode (s'.wordAt 0x200) = .drw 0 1 5 ∧ s'.Readable (decode (s'.wordAt 0x200))) :=
  ⟨⟨by decide, by decide, readable_of_zero _ _ rfl⟩, by decide, by decide, readable_of_zero _ _ rfl⟩

theorem witness_LiveMachineAlwaysSteps : State.reset.Inv ∧ State.reset.runState ≠ .halted ∧
    State.reset.params.unwrittenRead = .zero := by decide

/-- Both policies, a read that is not permitted for each reason, and an instruction that completes. -/
theorem witness_UnwrittenReadPolicy :
    State.reset.params.unwrittenRead = .zero ∧ strict.params.unwrittenRead = .fault ∧
    ¬ strict.Readable (.addImm 15 1) ∧ ¬ (strict.setReg 0 0).Readable (.drw 0 1 0) ∧
    ¬ (strict.setReg 0 0).Readable (.drw 0 0 1) ∧ (strict.setReg 0 0).Readable (.drw 0 0 0) := by decide
theorem witness_UnwrittenReadPolicy_next : ∃ t, exec (.ldIndex 0x300) strict = .next t := ⟨_, rfl⟩

theorem witness_ClsTurnsEveryCellOff : 0x0FE0#16 &&& 0xF0FF#16 = 0x00E0#16 := by decide

theorem witness_RetPopsTopOfStack : [1#8, 16#8].Forall fun d =>
    1 ≤ (State.reset.setSp d).sp.toNat ∧ (State.reset.setSp d).sp.toNat ≤ 16 := by decide
theorem witness_RetOnEmptyStackUnderflows : State.reset.sp = 0#8 := by decide

theorem witness_JumpSetsPc : 0x1FFF#16 &&& 0xF000#16 = 0x1000#16 ∧ State.reset.runState ≠ .halted ∧
    ((0x203#12).toNat % 2 = 1 ∨ 0x203#12 = 0xFFF#12) := by decide
theorem witness_JumpSetsPc_next : ∃ t, exec (.jp 0xFFF) State.reset = .next t := ⟨_, rfl⟩
theorem witness_JumpSetsPc_loop : [0x000#16, 0x200#16, 0xFFE#16].Forall fun a =>
    State.CanFetch ((State.reset.setPc a).withFetchWord 16 (0x1000 + a.toNat)) ∧
    ((State.reset.setPc a).withFetchWord 16 (0x1000 + a.toNat)).wordAt a.toNat = 0x1000#16 ||| a := by decide

/-- For CallThenReturnRestores too: an empty stack, and the last free slot. -/
theorem witness_CallPushesReturnAddress : [0#8, 15#8].Forall fun d => (State.reset.setSp d).sp.toNat < 16 := by decide
theorem witness_CallOnFullStackOverflows : (State.reset.setSp 16).sp.toNat = 16 := by decide
theorem witness_NoSlotAboveDepth : [17#8, 255#8].Forall fun d => 16 < (State.reset.setSp d).sp.toNat := by decide

theorem witness_register_words : 0x6FFF#16 &&& 0xF000#16 = 0x6000#16 ∧ 0x7FFF#16 &&& 0xF000#16 = 0x7000#16 ∧
    0xAFFF#16 &&& 0xF000#16 = 0xA000#16 := by decide
/-- The read of ADD is permitted at reset, and with the policy `fault` after a write. -/
theorem witness_AddImmediateWraps :
    State.reset.Readable (.addImm 15 1) ∧ (strict.setReg 15 0xFF).Readable (.addImm 15 1) := by decide
theorem witness_register_next : ∃ t, exec (.ldIndex 0xFFF#12) State.reset = .next t := ⟨_, rfl⟩

/-- Zero memory is a sprite of zero bytes; the second clause at two states that differ in `pc`, `sp` and timers. -/
theorem witness_DrawChangesDisplayAndFlagOnly :
    State.reset.Readable (.drw 0 15 15) ∧ State.reset.Readable (.drw 0 15 0) ∧
    Framebuffer.wf State.reset.params State.reset.fb ∧
    (∀ r, r < (15#4).toNat → State.reset.memRead (State.reset.index.toNat + r) = 0#8) := by decide
theorem witness_DrawChangesDisplayAndFlagOnly_pair :
    let s := State.reset
    let s' := ((State.reset.setPc 0x300).setSp 3).setDt 9
    s'.reg 0 = s.reg 0 ∧ s'.index = s.index ∧ s'.mem = s.mem ∧ s'.fb = s.fb ∧ s'.params = s.params ∧
    (∃ t, exec (.drw 0 0 15) s = .next t) ∧ ∃ t', exec (.drw 0 0 15) s' = .next t' :=
  ⟨rfl, rfl, rfl, rfl, rfl, ⟨_, rfl⟩, ⟨_, rfl⟩⟩

/-- A display with overlap, where two lit pixels land on one cell, and one without. -/
def narrow : State := (withBytes (instanceOf 4 32 true) 0x300 [0xFF]).setIndex 0x300

/-- The reads of a draw are permitted: for every obligation on a draw in a state of the invariant. -/
theorem witness_draw_readable : State.reset.Readable (.drw 0 0 15) ∧ narrow.Readable (.drw 0 0 1) ∧
    ((strict.setReg 0 0).setIndex 0x300).Readable (.drw 0 0 1) := by decide

/-- A state in whose draw one lit pixel is placed, on an unlit cell. -/
def dot : State := (withBytes State.reset 0x300 [0x80]).setIndex 0x300

theorem witness_reset_inv : State.reset.Inv := by decide
theorem witness_narrow_inv : narrow.Inv := by decide
theorem witness_dot_inv : dot.Inv := by decide
theorem witness_dot_on_inv : (dot.setFb (lit [0])).Inv := by decide

theorem witness_DrawXorsEveryCell_landings :
    narrow.landings 0 0 1 = [(0, 0), (0, 1), (0, 2), (0, 3), (0, 0), (0, 1), (0, 2), (0, 3)] ∧
    dot.landings 0 0 1 = [(0, 0)] := by decide

theorem witness_DrawCollisionFlag :
    (∃ before c after, narrow.landings 0 0 1 = before ++ c :: after ∧
      (narrow.pixel c.1 c.2 ^^ (before.count c % 2 == 1)) = true) ∧
    ¬ ∃ before c after, State.reset.landings 0 0 15 = before ++ c :: after ∧
      (State.reset.pixel c.1 c.2 ^^ (before.count c % 2 == 1)) = true :=
  ⟨⟨[(0, 0), (0, 1), (0, 2), (0, 3)], (0, 0), [(0, 1), (0, 2), (0, 3)], by decide, by decide⟩, by
    rintro ⟨before, c, after, h, _⟩
    have h0 : State.reset.landings 0 0 15 = [] := by decide
    rw [h0] at h
    simp at h⟩

/-- Either way of having no overlap, at its bounds. -/
theorem witness_LandingsDoNotOverlap :
    ((instanceOf 1 1 false).params.wf ∧ (instanceOf 1 1 false).params.wrapMode = false) ∧
    ((instanceOf 8 15 true).params.wf ∧ 8 ≤ (instanceOf 8 15 true).params.dispW ∧
      (15#4).toNat ≤ (instanceOf 8 15 true).params.dispH) := by decide

/-- Both clauses on the flag: the placed pixel's cell off, and on. -/
theorem witness_DrawTwiceRestoresDisplay :
    (∃ t, exec (.drw 0 1 1) dot = .next t ∧ t.reg 0 = dot.reg 0 ∧ t.reg 1 = dot.reg 1) ∧
    (dot.landings 0 1 1).Nodup ∧ (∃ c ∈ dot.landings 0 1 1, dot.pixel c.1 c.2 = false) ∧
    (∃ t, exec (.drw 0 1 1) (dot.setFb (lit [0])) = .next t ∧ t.reg 0 = (dot.setFb (lit [0])).reg 0 ∧
      t.reg 1 = (dot.setFb (lit [0])).reg 1) ∧ ((dot.setFb (lit [0])).landings 0 1 1).Nodup ∧
    (∀ c ∈ (dot.setFb (lit [0])).landings 0 1 1, (dot.setFb (lit [0])).pixel c.1 c.2 = true) :=
  ⟨⟨_, rfl, by decide, by decide⟩, by decide, by decide, ⟨_, rfl, by decide, by decide⟩, by decide, by decide⟩

theorem witness_DrawWrapsAtCorner :
    let s := ((instanceOf 8 2 true).setReg 0 7).setReg 1 1
    s.Inv ∧ s.Readable (.drw 0 1 2) ∧ s.params.wrapMode = true ∧ 8 ≤ s.params.dispW ∧ 2 ≤ (2#4).toNat ∧ (2#4).toNat ≤ s.params.dispH ∧
    s.origin 0 1 = (s.params.dispH - 1, s.params.dispW - 1) := by decide

/-- A cell inside the sprite's box, one past its last column and one past its last row. -/
theorem witness_DrawClipsAtEdges :
    State.reset.Inv ∧ State.reset.Readable (.drw 0 1 1) ∧ State.reset.params.wrapMode = false ∧
    ((State.reset.origin 0 1).1 ≤ 0 ∧ 0 < (State.reset.origin 0 1).1 + (1#4).toNat ∧
      (State.reset.origin 0 1).2 ≤ 7 ∧ 7 < (State.reset.origin 0 1).2 + 8) ∧
    ¬ 8 < (State.reset.origin 0 1).2 + 8 ∧ ¬ 1 < (State.reset.origin 0 1).1 + (1#4).toNat := by decide

theorem witness_TallSpriteIsRecoverable : 15 < 16 ∧ ∃ t, exec (.drw 0 0 15) State.reset = .next t :=
  ⟨by decide, ⟨_, rfl⟩⟩

theorem witness_UnimplementedWordsAreNoOps :
    ([0x3000#16, 0x4000#16, 0x5FFF#16, 0x8014#16, 0x9000#16, 0xB200#16, 0xC0FF#16, 0xE09E#16, 0xFFFF#16].Forall fun w =>
      w.toNat / 4096 ∈ [3, 4, 5, 8, 9, 0xB, 0xC, 0xE, 0xF]) ∧
    ((0x0FEF#16).toNat / 4096 = 0 ∧ (0x0FEF#16).toNat % 256 ≠ 0xE0 ∧ (0x0FEF#16).toNat % 256 ≠ 0xEE) := by decide

theorem witness_UnimplementedRunIsNoOps_word :
    0x00E1#16 &&& 0xF0FF#16 ≠ 0x00E0#16 ∧ 0x00E1#16 &&& 0xF0FF#16 ≠ 0x00EE#16 ∧
    0x00E1#16 &&& 0xF000#16 ∉ [0x1000#16, 0x2000#16, 0x6000#16, 0x7000#16, 0xA000#16, 0xD000#16] := by decide

/-- Two words, the second at the last address of memory. -/
theorem witness_UnimplementedRunIsNoOps :
    let s := State.reset.setPc 0xFFC
    s.runState ≠ .halted ∧ s.pc.toNat % 2 = 0 ∧ s.pc.toNat + 2 * (1 + 1) ≤ 4096 ∧
    ∀ j, j < 1 + 1 → (decode (s.wordAt (s.pc.toNat + 2 * j))).isUnimplemented = true := by decide

/-- A completed instruction, a fatal one and an unimplemented one. -/
theorem witness_InstructionFrame :
    (∃ t, exec (.call 0x300) State.reset = .next t) ∧ (∃ t, exec (.ret 0) State.reset = .next t) ∧
    (∃ t, exec (.cls 0) State.reset = .next t) ∧ (∃ t, exec (.unimplF 0 6 5) State.reset = .next t) :=
  ⟨⟨_, rfl⟩, ⟨_, rfl⟩, ⟨_, rfl⟩, ⟨_, rfl⟩⟩

theorem witness_StepKeepsInvariant : State.reset.Inv ∧ ∃ t, step State.reset = .next t :=
  ⟨by decide, next_of_isSome (by decide)⟩

theorem witness_ResetHasInvariant : (instanceOf 1 1 true).params.wf := by decide

/-- `pc` at the top of the range, and at an entry point outside it. -/
theorem witness_PcStaysInRange :
    (∃ t, step (State.reset.setPc 0x1000) = .next t) ∧ (State.reset.setPc 0x1000).Inv ∧
    (State.reset.setPc 0x1000).pc.toNat ≤ 0x1000 ∧
    (let s := State.resetWith { Config.Params.simulator with entry := 0xFFFE#16 }
     s.Inv ∧ s.pc = s.params.entry ∧ ∃ t, step s = .next t) :=
  ⟨next_of_isSome (by decide), by decide, by decide, by decide, by decide, next_of_isSome (by decide)⟩

/-- The cases of a step (HaltsExactlyOnFatal, FatalFaultsArePrecise, EventOfEachStep): completed, unimplemented, a
bad `pc`, and a stack fault of each kind. -/
theorem witness_step_cases :
    (run State.reset 0x6000).map (fun t => t.result) = some .ok ∧
    (run State.reset 0x3000).map (fun t => t.result) = some .ok ∧
    (nextState? (step (State.reset.setPc 1))).map (fun t => t.result) = some (.fatal .invalidProgramCounter) ∧
    (run State.reset 0x00EE).map (fun t => t.result) = some (.fatal .stackUnderflow) ∧
    (run (State.reset.setSp 16) 0x2000).map (fun t => t.result) = some (.fatal .stackOverflow) := by decide

theorem witness_RunStateReadOnlyForHalted :
    State.reset.runState ≠ .halted ∧ RunState.paused ≠ .halted ∧ RunState.stepping ≠ .halted := by decide

/-- The same byte by two addresses, and its neighbour. -/
theorem witness_ReadAfterHostWrite : Memory.wf State.reset.mem ∧ 0x1FFF % 4096 = 0xFFF % 4096 ∧
    ¬ 0x1FFF % 4096 = 0x1000 % 4096 := by decide

/-- An image that fills memory to its last byte, and one a byte longer. -/
def lastWord : Rig := Rig.construct { Config.Params.simulator with entry := 0xFFE#16 }

theorem witness_LoadPlacesImage : lastWord.started = false ∧ Memory.wf lastWord.core.mem ∧
    lastWord.core.params.entry.toNat + [0x12#8, 0x34#8].length ≤ 4096 := by decide
theorem witness_HostMemoryWritesRefused :
    4096 < lastWord.core.params.entry.toNat + [0x12#8, 0x34#8, 0x56#8].length ∧
    ({ lastWord with started := true } : Rig).started = true := by decide

/-- The same rig once a step has been taken, in a given run-state, and whether a step was taken in it. -/
def startedIn (r : RunState) (stepped : Bool) : Rig :=
  { core := lastWord.core.setRunState r, started := true, stepped := stepped }

theorem witness_HostMemoryWritesRefused_step :
    ∃ m', drive (.step (Vector.replicate 16 true)) lastWord = .next m' := ⟨_, rfl⟩

theorem witness_HostRunStateTransitions :
    lastWord.started = false ∧ (startedIn .stepping true).started = true ∧
    ((startedIn .stepping true).core.runState = .stepping ∧ (startedIn .stepping true).stepped = true) ∧
    ((startedIn .paused false).core.runState, RunState.stepping) ∈
      ([(.running, .paused), (.paused, .running), (.paused, .stepping), (.running, .halted),
        (.paused, .halted), (.stepping, .halted), (.halted, .halted)] : List (RunState × RunState)) := by decide
/-- Stepping is not left for Paused with no step taken, and Halted not at all (R187). -/
theorem witness_HostRunStateTransitions_illegal :
    drive (.setRunState .paused) (startedIn .stepping false) = .refused .illegalTransition ∧
    drive (.setRunState .running) (startedIn .halted true) = .refused .illegalTransition := ⟨rfl, rfl⟩

theorem witness_HostFrame :
    (∃ m', drive (.writeTimer .delay 5) (startedIn .running true) = .next m') ∧
    HostMove.writeTimer .delay 5 ≠ .reset ∧ ∀ k, HostMove.writeTimer .delay 5 ≠ .step k :=
  ⟨⟨_, rfl⟩, by decide, fun k h => by cases h⟩

theorem witness_ResetAndTimerMoves : (startedIn .running true).started = true ∧ lastWord.started = false := by decide

/-- A step that answers a next state, one that stops, and a byte write before the first step. -/
theorem witness_StepAndByteMoves :
    (∃ t, step { lastWord.core with keys := Vector.replicate 16 true } = .next t) ∧
    step { (startedIn .halted true).core with keys := Vector.replicate 16 true } = .fault .haltedNoStep ∧
    lastWord.started = false := ⟨⟨_, rfl⟩, rfl, rfl⟩

/-- A host that steps at every move, and one that pauses, writes Halted, and so on. -/
def stepper : Nat → HostMove := fun _ => .step (Vector.replicate 16 false)
def pauser : Nat → HostMove := fun j => if j = 0 then .setRunState .paused else .setRunState .halted

/-- From 0x0FFE: one no-op, then the fatal fault at 0x1000 ends the run; with less fuel there is no end (R230, R231). -/
theorem witness_RunnerStops_fatal :
    (∃ final, runHost stepper 2 0 lastWord = .fatal .invalidProgramCounter final) ∧
    runHost stepper 1 0 lastWord = .outOfFuel := ⟨⟨_, rfl⟩, rfl⟩
/-- Paused is no end, the Halted write is (R231). -/
theorem witness_RunnerStops_quit :
    (∃ final, runHost pauser 2 0 (startedIn .running true) = .quit final) ∧
    runHost pauser 1 0 (startedIn .running true) = .outOfFuel := ⟨⟨_, rfl⟩, rfl⟩
/-- Each way a move can go for the runner: on, to an end, to a stop, to no move. -/
theorem witness_RunnerStops_moves :
    (∃ m', drive (stepper 0) lastWord = .next m') ∧
    drive (stepper 0) (startedIn .halted true) = .fault .haltedNoStep ∧
    drive (pauser 0) lastWord = .refused .notBetweenSteps := ⟨⟨_, rfl⟩, rfl, rfl⟩

theorem witness_EveryMoveKeepsInvariant : lastWord.core.Inv ∧ ∃ m', drive (.writeByte 0x1FFF 7) lastWord = .next m' :=
  ⟨by decide, ⟨_, rfl⟩⟩

theorem witness_PlacedWordRunsNext : [0x000#16, 0xFFE#16].Forall fun a =>
    State.CanFetch (State.reset.setPc a) ∧ Memory.wf (State.reset.setPc a).mem := by decide

end Sys2Proof.Tests
end

/-! PROOF. The number each field holds, from the number of the word (R71), and with the overlaps of
Sys2Proof/Laws/Fields.lean the obligation on the field positions. -/

namespace Sys2Proof

/-! ### The number in a bit range -/

/-- A bit range as quotient and remainder, the form in which R71's positions are stated as numbers. -/
theorem toNat_bitRange (w : Word) (low width : Nat) :
    (w.extractLsb' low width).toNat = w.toNat / 2 ^ low % 2 ^ width := by
  rw [BitVec.extractLsb'_toNat, Nat.shiftRight_eq_div_pow]

theorem toNat_lowBits (w : Word) (width : Nat) : (w.extractLsb' 0 width).toNat = w.toNat % 2 ^ width := by
  rw [toNat_bitRange, pow_zero, Nat.div_one]

/-! ### The number in each field -/

/-- No remainder is left to take: above bit 12 a word has only the four bits of `F`. -/
theorem toNat_fieldF (w : Word) : (fieldF w).toNat = w.toNat / 4096 := by
  have hquot : w.toNat / 4096 < 16 := Nat.div_lt_of_lt_mul w.isLt
  calc (fieldF w).toNat = w.toNat / 4096 % 16 := toNat_bitRange w 12 4
    _ = w.toNat / 4096 := Nat.mod_eq_of_lt hquot

theorem toNat_fieldX (w : Word) : (fieldX w).toNat = w.toNat / 256 % 16 := toNat_bitRange w 8 4

theorem toNat_fieldY (w : Word) : (fieldY w).toNat = w.toNat / 16 % 16 := toNat_bitRange w 4 4

theorem toNat_fieldN (w : Word) : (fieldN w).toNat = w.toNat % 16 := toNat_lowBits w 4

theorem toNat_fieldNN (w : Word) : (fieldNN w).toNat = w.toNat % 256 := toNat_lowBits w 8

theorem toNat_fieldNNN (w : Word) : (fieldNNN w).toNat = w.toNat % 4096 := toNat_lowBits w 12

/-! ### The obligation -/

/-- Settles O5: each field is a bit range read as a number, and the two overlaps are those of the fields' laws. -/
theorem fieldsAtFixedPositions : Obligations.FieldsAtFixedPositions := fun w =>
  ⟨toNat_fieldF w, toNat_fieldX w, toNat_fieldY w, toNat_fieldN w, toNat_fieldNN w, toNat_fieldNNN w,
    fieldNNN_eq_XNN w, fieldNN_eq_YN w⟩

end Sys2Proof

/-! PROOF. The program-counter check (R90): which addresses pass it, and the one step a machine takes where it fails. -/

namespace Sys2Proof.Machine

/-! ### The addresses the check passes -/

theorem pcValid_eq_false_iff (pc : Word) : pcValid pc = false ↔ ¬ (pc.toNat < 4095 ∧ pc.toNat % 2 = 0) := by
  rw [← pcValid_iff, Bool.not_eq_true]

/-- The valid values as the spec lists them: an even address below 4095 is at most `0xFFE`. -/
theorem pcValid_iff_even_le (pc : Word) : pcValid pc = true ↔ pc.toNat % 2 = 0 ∧ pc.toNat ≤ 0xFFE := by
  rw [pcValid_iff]
  omega

/-! ### The step where the check fails -/

/-- The other half of `step_of_canFetch`: no fetch, only the fault. -/
theorem step_of_not_pcValid (s : State) (hlive : s.runState ≠ .halted) (hpc : pcValid s.pc = false) :
    step s = .next (s.takeFatal .invalidProgramCounter s.pc none) := by
  rcases runCycle_cases exec s with ⟨hhalted, _⟩ | ⟨_, _, hstep⟩ | ⟨_, hvalid, _⟩
  · exact absurd hhalted hlive
  · exact hstep
  · exact absurd (hvalid.symm.trans hpc) (by decide)

/-- The frame of a fatal fault (R186). -/
theorem takeFatal_eq_with_diag (s : State) (k : FatalKind) (a : Word) (w : Option Word) :
    s.takeFatal k a w =
      { s with diag := (s.takeFatal k a w).diag, runState := .halted, result := .fatal k } := rfl

/-- A fatal fault neither reads memory nor writes it (R186). -/
theorem takeFatal_with_mem (s : State) (m : Memory) (k : FatalKind) (a : Word) (w : Option Word) :
    State.takeFatal { s with mem := m } k a w = { s.takeFatal k a w with mem := m } := rfl

/-! ### The obligation -/

/-- Settles O9: the failed check raises the fault at `pc`, under any memory since the check reads `run_state` and `pc`
alone. -/
theorem invalidPcFaults : Obligations.InvalidPcFaults := by
  refine ⟨fun s hlive hrange => ?_, pcValid_iff_even_le⟩
  have hpc : pcValid s.pc = false := (pcValid_eq_false_iff s.pc).mpr hrange
  refine ⟨_, step_of_not_pcValid s hlive hpc, takeFatal_eq_with_diag s _ _ _, fun m => ?_⟩
  exact ⟨_, step_of_not_pcValid { s with mem := m } hlive hpc, takeFatal_with_mem s m _ _ _⟩

end Sys2Proof.Machine

/-! PROOF. Control transfer by CLS and JP (R110, R112): the words that decode to them, the state each leaves, and what
the step after a jump does. -/

namespace Sys2Proof

/-! ### Fields of a word known under a mask -/

theorem fieldF_of_and_familyMask {w : Word} {f : Nibble} (h : w &&& 0xF000#16 = packNNN f 0#12) : fieldF w = f := by
  rw [and_familyMask] at h
  simpa only [fieldF_packNNN] using congrArg fieldF h

theorem fields_of_and_exactMask {w : Word} {f : Nibble} {nn : Byte}
    (h : w &&& 0xF0FF#16 = packNNN f (0#4 ++ nn)) : fieldF w = f ∧ fieldNN w = nn := by
  rw [and_exactMask] at h
  exact ⟨by simpa only [fieldF_packNNN] using congrArg fieldF h,
    by simpa only [fieldNN_packNNN] using congrArg fieldNN h⟩

/-! ### The words of CLS and JP -/

theorem decode_of_cls_fields {w : Word} (hf : fieldF w = 0x0#4) (hnn : fieldNN w = 0xE0#8) :
    decode w = .cls (fieldX w) := by
  simp only [decode, decodeFamily0, hf, hnn, if_true]

theorem decode_of_jp_family {w : Word} (hf : fieldF w = 0x1#4) : decode w = .jp (fieldNNN w) := by
  simp only [decode, hf]

theorem decode_packNNN_jp (nnn : Addr12) : decode (packNNN 0x1#4 nnn) = .jp nnn := by
  rw [decode_of_jp_family (fieldF_packNNN _ _), fieldNNN_packNNN]

/-- The word of a jump as a programmer writes it: the family's pattern with the target in the low 12 bits. -/
theorem jpPattern_or_target (nnn : Addr12) : 0x1000#16 ||| nnn.setWidth 16 = packNNN 0x1#4 nnn := by
  ext i hi
  rw [getElem_packNNN]
  simp only [BitVec.getElem_or, BitVec.getElem_setWidth]
  interval_cases i <;> simp

end Sys2Proof

namespace Sys2Proof.Machine

/-! ### CLS -/

theorem exec_cls (g : Nibble) (s : State) : exec (.cls g) s = .next (s.setFb []).ok := rfl

/-- A cell that is not listed is off (log 5). -/
theorem pixel_of_fb_nil {s : State} (h : s.fb = []) (row col : Nat) : s.pixel row col = false := by
  simp only [State.pixel, h, Cells.get]

/-- Settles O15: a word of family 0 with low byte `0xE0` is CLS, and CLS puts the empty framebuffer, whatever stood in
bits 11 to 8 and in the framebuffer before. -/
theorem clsTurnsEveryCellOff : Obligations.ClsTurnsEveryCellOff := by
  refine ⟨fun w hw => ?_, fun s => ?_⟩
  · obtain ⟨hf, hnn⟩ := fields_of_and_exactMask (f := 0x0#4) (nn := 0xE0#8) hw
    exact decode_of_cls_fields hf hnn
  · exact ⟨(s.setFb []).ok, fun g => exec_cls g s, rfl, pixel_of_fb_nil rfl, fun g => ⟨_, exec_cls g _, rfl⟩⟩

/-! ### JP -/

theorem exec_jp (nnn : Addr12) (s : State) : exec (.jp nnn) s = .next (s.setPc (operandNNN nnn)).ok := rfl

theorem toNat_operandNNN (nnn : Addr12) : (operandNNN nnn).toNat = nnn.toNat :=
  BitVec.toNat_setWidth_of_le (by decide)

/-- An address with a word of memory behind it fits in the 12 bits of a jump. -/
theorem operandNNN_setWidth_of_pcValid {pc : Word} (h : pcValid pc = true) : operandNNN (pc.setWidth 12) = pc := by
  obtain ⟨hlt, -⟩ := (pcValid_iff pc).mp h
  apply BitVec.eq_of_toNat_eq
  rw [toNat_operandNNN, BitVec.toNat_setWidth]
  omega

/-- JP does not check its target, so the next step's check meets the odd ones, `0xFFF` among them (R112). -/
theorem pcValid_operandNNN_eq_false {nnn : Addr12} (h : nnn.toNat % 2 = 1) : pcValid (operandNNN nnn) = false := by
  rw [pcValid_eq_false_iff, toNat_operandNNN]
  omega

/-- A step on the word of a jump: the advance of `pc` is overwritten (R112). -/
theorem step_of_jp_word {s : State} {nnn : Addr12} (h : s.CanFetch) (hw : s.wordAt s.pc.toNat = packNNN 0x1#4 nnn) :
    step s = .next (s.setPc (operandNNN nnn)).ok := by
  rw [step_of_canFetch s h, hw, decode_packNNN_jp]
  exact exec_jp nnn s.advance

/-- Settles O18: family 1 is JP; the state it leaves fails the program-counter check where the target is odd; and the
word of a jump to its own address carries all of a valid `pc`. -/
theorem jumpSetsPc : Obligations.JumpSetsPc := by
  refine ⟨fun w hw => ?_, exec_jp, fun nnn s t hlive htarget hexec => ?_, fun s hfetch hword => ?_⟩
  · exact decode_of_jp_family (fieldF_of_and_familyMask hw)
  · have hodd : nnn.toNat % 2 = 1 := htarget.elim id fun hlast => by rw [hlast]; decide
    cases hexec
    exact ⟨_, step_of_not_pcValid _ hlive (pcValid_operandNNN_eq_false hodd), takeFatal_eq_with_diag _ _ _ _⟩
  · have hself : operandNNN (s.pc.setWidth 12) = s.pc := operandNNN_setWidth_of_pcValid hfetch.2
    have hjp : s.wordAt s.pc.toNat = packNNN 0x1#4 (s.pc.setWidth 12) := by
      rw [hword, ← jpPattern_or_target]
      exact congrArg (0x1000#16 ||| ·) hself.symm
    rw [step_of_jp_word hfetch hjp, hself]
    rfl

end Sys2Proof.Machine

/-! PROOF. LD Vx, NN and ADD Vx, NN (R130, R131): the words that decode to them, and the one register each writes. -/

namespace Sys2Proof

/-! ### The words of LD Vx, NN and ADD Vx, NN -/

theorem decode_of_ldImm_family {w : Word} (hf : fieldF w = 0x6#4) : decode w = .ldImm (fieldX w) (fieldNN w) := by
  simp only [decode, hf]

theorem decode_of_addImm_family {w : Word} (hf : fieldF w = 0x7#4) : decode w = .addImm (fieldX w) (fieldNN w) := by
  simp only [decode, hf]

end Sys2Proof

namespace Sys2Proof.Machine

/-! ### A handler that writes one register -/

/-- The frame of a register write with result `Ok`, the bookkeeping bits of R37 aside. -/
theorem setReg_ok_eq_with_regs (s : State) (x : Nibble) (v : Byte) :
    (s.setReg x v).ok = { s with
      regs := (s.setReg x v).ok.regs, regWritten := (s.setReg x v).ok.regWritten, result := .ok } := rfl

theorem reg_ok (s : State) (j : Nibble) : s.ok.reg j = s.reg j := reg_congr (ok_regs s) j

theorem reg_setReg_ok_same (s : State) (x : Nibble) (v : Byte) : (s.setReg x v).ok.reg x = v := by
  rw [reg_ok, reg_setReg, if_pos rfl]

/-- No register is tied to another: `VF` keeps its value unless it is the destination (R21). -/
theorem reg_setReg_ok_of_ne (s : State) {x j : Nibble} (v : Byte) (h : j ≠ x) :
    (s.setReg x v).ok.reg j = s.reg j := by
  rw [reg_ok, reg_setReg, if_neg h.symm]

/-! ### LD Vx, NN -/

theorem exec_ldImm (x : Nibble) (nn : Byte) (s : State) : exec (.ldImm x nn) s = .next (s.setReg x nn).ok := rfl

/-- Settles O23: family 6 is LD Vx, NN, which in every state is one register write. -/
theorem loadImmediateSetsRegister : Obligations.LoadImmediateSetsRegister := by
  refine ⟨fun w hw => ?_, fun x nn s => ?_⟩
  · exact decode_of_ldImm_family (fieldF_of_and_familyMask hw)
  · exact ⟨_, exec_ldImm x nn s, setReg_ok_eq_with_regs s x nn, reg_setReg_ok_same s x nn,
      fun _ => reg_setReg_ok_of_ne s nn⟩

/-! ### ADD Vx, NN -/

theorem exec_addImm_of_readable {x : Nibble} {nn : Byte} {s : State} (h : s.Readable (.addImm x nn)) :
    exec (.addImm x nn) s = .next (s.setReg x (addTrunc (s.reg x) nn)).ok := by
  rw [exec_addImm_eq, if_pos h]

theorem toNat_addTrunc (a b : Byte) : (addTrunc a b).toNat = (a.toNat + b.toNat) % 256 := by
  rw [addTrunc, BitVec.toNat_ofNat, Nat.mod_mod]

/-- Settles O24: family 7 is ADD Vx, NN, which where its read is permitted is one register write, of the truncated
sum; the carry goes nowhere. -/
theorem addImmediateWraps : Obligations.AddImmediateWraps := by
  refine ⟨fun w hw => ?_, fun x nn s hread => ?_⟩
  · exact decode_of_addImm_family (fieldF_of_and_familyMask hw)
  · have hsum : ((s.setReg x (addTrunc (s.reg x) nn)).ok.reg x).toNat = ((s.reg x).toNat + nn.toNat) % 256 := by
      rw [reg_setReg_ok_same, toNat_addTrunc]
    exact ⟨_, exec_addImm_of_readable hread, setReg_ok_eq_with_regs s x _, hsum, fun _ => reg_setReg_ok_of_ne s _⟩

end Sys2Proof.Machine

/-! PROOF. The frame of DRW (R149): the one state a draw can leave, when its blit is no change, and what its blit
depends on. -/

namespace Sys2Proof.Machine

/-! ### The state a DRW leaves -/

theorem exec_drw_of_readable {x y n : Nibble} {s : State} (h : s.Readable (.drw x y n)) :
    exec (.drw x y n) s = .next (drawRows x y n.toNat s) := exec_drw x y n s h

/-- The converse: a DRW that answers a next state answers that one. -/
theorem eq_drawRows_of_exec {x y n : Nibble} {s t : State} (h : exec (.drw x y n) s = .next t) :
    t = drawRows x y n.toNat s := by
  rw [exec_drw_eq] at h
  split at h
  · cases h
    rfl
  · cases h

theorem drawRows_fb (x y n : Nibble) (s : State) : (drawRows x y n.toNat s).fb = (drawBlit x y n s).fb := rfl

theorem drawRows_vf (x y n : Nibble) (s : State) : (drawRows x y n.toNat s).reg flagReg = (drawBlit x y n s).vf :=
  reg_setReg_ok_same _ _ _

theorem drawRows_reg_of_ne (x y : Nibble) (height : Nat) (s : State) {i : Nibble} (h : i ≠ flagReg) :
    (drawRows x y height s).reg i = s.reg i :=
  reg_setReg_ok_of_ne _ _ h

/-- The frame of a draw with result `Ok`, the bookkeeping bits of R37 aside. -/
theorem drawRows_eq_with_fb_regs (x y : Nibble) (height : Nat) (s : State) :
    drawRows x y height s = { s with
      fb := (drawRows x y height s).fb, regs := (drawRows x y height s).regs,
      regWritten := (drawRows x y height s).regWritten, result := .ok } := rfl

/-! ### A draw that places no lit pixel -/

theorem drawBlit_height_zero (x y : Nibble) (s : State) : drawBlit x y 0#4 s = ⟨s.fb, 0#8⟩ := rfl

/-- A zero byte has no lit pixel (R146). -/
theorem landings_eq_nil_of_zero_sprite {s : State} {height : Nat} (x y : Nibble)
    (h : ∀ r, r < height → s.memRead (s.index.toNat + r) = 0#8) : s.landings x y height = [] := by
  refine List.eq_nil_iff_forall_not_mem.mpr fun c hc => ?_
  obtain ⟨r, hr, k, -, hlit, -⟩ := mem_landings.mp hc
  simp [State.lit, h r hr] at hlit

/-- Canonical form is needed: putting an unlit pixel drops a listed cell that is off. -/
theorem drawBlit_zero_sprite (x y : Nibble) {n : Nibble} {s : State} (hfb : Cells.Canonical false s.fb)
    (h : ∀ r, r < n.toNat → s.memRead (s.index.toNat + r) = 0#8) : drawBlit x y n s = ⟨s.fb, 0#8⟩ := by
  rw [drawBlit_eq_fold x y n s hfb, landings_eq_nil_of_zero_sprite x y h, List.foldl_nil]

/-- Such a draw keeps the display and leaves `VF` as R143 cleared it. -/
theorem drawRows_fb_vf_of_blit_unchanged {x y n : Nibble} {s : State} (h : drawBlit x y n s = ⟨s.fb, 0#8⟩) :
    (drawRows x y n.toNat s).fb = s.fb ∧ (drawRows x y n.toNat s).reg flagReg = 0#8 := by
  rw [drawRows_fb, drawRows_vf, h]
  exact ⟨rfl, rfl⟩

/-! ### What a draw depends on -/

/-- The rows of a sprite are read through `I`, memory and the parameters alone (R144). -/
theorem blitRows_congr {s s' : State} (hi : s'.index = s.index) (hm : s'.mem = s.mem) (hp : s'.params = s.params)
    (col0 row0 : Nat) (rs : List Nat) (b : Blit) : blitRows s' col0 row0 rs b = blitRows s col0 row0 rs b := by
  induction rs generalizing b with
  | nil => rfl
  | cons r rs ih => rw [blitRows, blitRows, hi, hp, memRead_congr hm, ih]

theorem drawBlit_congr {x y : Nibble} (n : Nibble) {s s' : State} (hx : s'.reg x = s.reg x) (hy : s'.reg y = s.reg y)
    (hi : s'.index = s.index) (hm : s'.mem = s.mem) (hf : s'.fb = s.fb) (hp : s'.params = s.params) :
    drawBlit x y n s' = drawBlit x y n s := by
  simp only [drawBlit, operandReg, hx, hy, hf, hp, blitRows_congr hi hm hp]

/-! ### The obligation -/

/-- Settles O26: a DRW writes its blit's framebuffer and flag and nothing else; that blit is the display with the flag
cleared where no lit pixel is placed, and it is the same in states that agree on what R149 lists. -/
theorem drawChangesDisplayAndFlagOnly : Obligations.DrawChangesDisplayAndFlagOnly := by
  refine ⟨fun x y n s hread => ?_, fun x y n s s' t t' hx hy hi hm hf hp ht ht' => ?_⟩
  · refine ⟨drawRows x y n.toNat s, exec_drw_of_readable hread, drawRows_eq_with_fb_regs x y n.toNat s,
      fun _ => drawRows_reg_of_ne x y n.toNat s, fun hn => ?_, fun hwf hzero => ?_⟩
    · subst hn
      exact drawRows_fb_vf_of_blit_unchanged (drawBlit_height_zero x y s)
    · obtain ⟨hcanonical, -⟩ := hwf
      exact drawRows_fb_vf_of_blit_unchanged (drawBlit_zero_sprite x y hcanonical hzero)
  · have hblit : drawBlit x y n s' = drawBlit x y n s := drawBlit_congr n hx hy hi hm hf hp
    rw [eq_drawRows_of_exec ht, eq_drawRows_of_exec ht']
    constructor
    · rw [drawRows_fb, drawRows_fb, hblit]
    · calc (drawRows x y n.toNat s').reg flagReg = (drawBlit x y n s').vf := drawRows_vf x y n s'
        _ = (drawBlit x y n s).vf := by rw [hblit]
        _ = (drawRows x y n.toNat s).reg flagReg := (drawRows_vf x y n s).symm

end Sys2Proof.Machine

/-! PROOF. The unimplemented words (R160 to R170): which words they are, that the event of one records the fetched word,
and a run over several. -/

namespace Sys2Proof

/-! ### A decoded instruction encodes to its word -/

theorem packNNN_of_fieldF {w : Word} {f : Nibble} (hf : fieldF w = f) : packNNN f (fieldNNN w) = w := by
  rw [← hf, packNNN_fields]

theorem packXNN_of_fields {w : Word} {f : Nibble} {nn : Byte} (hf : fieldF w = f) (hnn : fieldNN w = nn) :
    packXNN f (fieldX w) nn = w := by
  rw [packXNN, ← hnn, ← fieldNNN_eq_XNN]
  exact packNNN_of_fieldF hf

theorem packXYN_of_fieldF {w : Word} {f : Nibble} (hf : fieldF w = f) :
    packXYN f (fieldX w) (fieldY w) (fieldN w) = w := by
  rw [packXYN, ← fieldNN_eq_YN]
  exact packXNN_of_fields hf rfl

theorem encode_decodeFamily0 {w : Word} (hf : fieldF w = 0x0#4) : encode (decodeFamily0 w) = w := by
  unfold decodeFamily0
  split
  · next hnn => exact packXNN_of_fields hf hnn
  · split
    · next hnn => exact packXNN_of_fields hf hnn
    · exact packNNN_of_fieldF hf

/-- Decoding loses no bit (R73), so the word a handler records is the word its step fetched (log 7). The
arms are taken together by the fields they carry: `NNN`, `X` and `NN`, or `X`, `Y` and `N`. -/
theorem encode_decode (w : Word) : encode (decode w) = w := by
  unfold decode
  split
  case h_1 hf => exact encode_decodeFamily0 hf
  case h_2 hf | h_3 hf | h_11 hf => exact packNNN_of_fieldF hf
  case h_7 hf | h_8 hf => exact packXNN_of_fields hf rfl
  case h_16 =>
    have hf : fieldF w = 0xF#4 := by
      generalize fieldF w = f at *
      decide +revert
    exact packXYN_of_fieldF hf
  all_goals
    next hf => exact packXYN_of_fieldF hf

/-! ### Which words are unimplemented -/

/-- The families of R74 all of whose words have an implemented row. -/
def implementedFamilies : List Nibble := [0x1#4, 0x2#4, 0x6#4, 0x7#4, 0xA#4, 0xD#4]

/-- The word is in no implemented row of R74: outside the implemented families, and in family 0 neither CLS nor RET. -/
def InNoImplementedRow (w : Word) : Prop :=
  fieldF w ∉ implementedFamilies ∧ (fieldF w = 0x0#4 → fieldNN w ≠ 0xE0#8 ∧ fieldNN w ≠ 0xEE#8)

theorem isUnimplemented_decodeFamily0 {w : Word} (hcls : fieldNN w ≠ 0xE0#8) (hret : fieldNN w ≠ 0xEE#8) :
    (decodeFamily0 w).isUnimplemented = true := by
  rw [decodeFamily0, if_neg hcls, if_neg hret]
  rfl

/-- The arms of the implemented families cannot be taken; every other arm but family 0's is unimplemented for all its
words. -/
theorem isUnimplemented_decode {w : Word} (h : InNoImplementedRow w) : (decode w).isUnimplemented = true := by
  obtain ⟨hfamily, hlow⟩ := h
  unfold decode
  split
  case h_1 hf =>
    obtain ⟨hcls, hret⟩ := hlow hf
    exact isUnimplemented_decodeFamily0 hcls hret
  case h_2 hf | h_3 hf | h_7 hf | h_8 hf | h_11 hf | h_14 hf => exact absurd hfamily (by rw [hf]; decide)
  all_goals rfl

/-- The word ranges of R161 to R170. -/
theorem inNoImplementedRow_of_range {w : Word}
    (h : w.toNat / 4096 ∈ [3, 4, 5, 8, 9, 0xB, 0xC, 0xE, 0xF] ∨
      (w.toNat / 4096 = 0 ∧ w.toNat % 256 ≠ 0xE0 ∧ w.toNat % 256 ≠ 0xEE)) : InNoImplementedRow w := by
  rw [← toNat_fieldF, ← toNat_fieldNN] at h
  rcases h with hfamily | ⟨hzero, hcls, hret⟩
  · have hother : ∀ f : Nibble, f.toNat ∈ [3, 4, 5, 8, 9, 0xB, 0xC, 0xE, 0xF] →
        f ∉ implementedFamilies ∧ f ≠ 0x0#4 := by decide
    obtain ⟨hnot, hne⟩ := hother (fieldF w) hfamily
    exact ⟨hnot, fun hf => absurd hf hne⟩
  · have hf : fieldF w = 0x0#4 := BitVec.eq_of_toNat_eq hzero
    refine ⟨by rw [hf]; decide, fun _ => ⟨fun hnn => hcls ?_, fun hnn => hret ?_⟩⟩ <;> rw [hnn] <;> rfl

/-- The masks and patterns of R74. -/
theorem inNoImplementedRow_of_masks {w : Word}
    (hcls : w &&& 0xF0FF#16 ≠ 0x00E0#16) (hret : w &&& 0xF0FF#16 ≠ 0x00EE#16)
    (hfamily : w &&& 0xF000#16 ∉ [0x1000#16, 0x2000#16, 0x6000#16, 0x7000#16, 0xA000#16, 0xD000#16]) :
    InNoImplementedRow w := by
  rw [and_exactMask] at hcls hret
  rw [and_familyMask] at hfamily
  refine ⟨fun hf => hfamily ?_, fun hf => ⟨fun hnn => hcls ?_, fun hnn => hret ?_⟩⟩
  · exact List.mem_map_of_mem (f := (packNNN · 0#12)) hf
  · rw [hf, hnn]
    rfl
  · rw [hf, hnn]
    rfl

end Sys2Proof

namespace Sys2Proof.Machine

/-! ### One unimplemented word -/

/-- The ten handlers are one (R160). -/
theorem exec_of_isUnimplemented {i : Instr} (h : i.isUnimplemented = true) (s : State) :
    exec i s = .next (s.noteUnimplemented i) := by
  cases i with
  | unimpl0 | unimpl3 | unimpl4 | unimpl5 | unimpl8 | unimpl9 | unimplB | unimplC | unimplE | unimplF => rfl
  | cls | ret | jp | call | ldImm | addImm | ldIndex | drw => cases h

theorem noteUnimplemented_decode (s : State) (w : Word) :
    s.noteUnimplemented (decode w) =
      { s with diag := s.diag ++ [⟨.unimplemented, s.fetchAddr, some w⟩], result := .ok } := by
  rw [State.noteUnimplemented, encode_decode]
  rfl

theorem exec_decode_of_isUnimplemented {w : Word} (h : (decode w).isUnimplemented = true) (s : State) :
    exec (decode w) s =
      .next { s with diag := s.diag ++ [⟨.unimplemented, s.fetchAddr, some w⟩], result := .ok } := by
  rw [exec_of_isUnimplemented h, noteUnimplemented_decode]

/-- Settles O35: the ranges leave out every implemented row, and outside those rows there is one behaviour, which
records the fetched word. -/
theorem unimplementedWordsAreNoOps : Obligations.UnimplementedWordsAreNoOps := fun _ s h =>
  exec_decode_of_isUnimplemented (isUnimplemented_decode (inNoImplementedRow_of_range h)) s

/-! ### A run over unimplemented words -/

/-- The event of the `j`-th of the unimplemented words that stand from `pc` on. -/
def State.noOpEvent (s : State) (j : Nat) : Event :=
  ⟨.unimplemented, s.pc + BitVec.ofNat 16 (2 * j), some (s.wordAt (s.pc.toNat + 2 * j))⟩

/-- The state after `k` unimplemented words, for `k` above 0 (R160). -/
def State.afterNoOps (s : State) (k : Nat) : State :=
  { s with
    pc := s.pc + BitVec.ofNat 16 (2 * k)
    diag := s.diag ++ (List.range k).map s.noOpEvent
    result := .ok }

/-- A live machine with `k` unimplemented words from `pc` on, all inside memory. -/
structure State.NoOpsAhead (s : State) (k : Nat) : Prop where
  live : s.runState ≠ .halted
  even : s.pc.toNat % 2 = 0
  fits : s.pc.toNat + 2 * k ≤ 4096
  words : ∀ j, j < k → (decode (s.wordAt (s.pc.toNat + 2 * j))).isUnimplemented = true

theorem wordAt_congr {s t : State} (h : t.mem = s.mem) (a : Nat) : t.wordAt a = s.wordAt a := by
  simp only [State.wordAt, byteAt_congr h]

theorem wordAt_afterNoOps (s : State) (k a : Nat) : (s.afterNoOps k).wordAt a = s.wordAt a := wordAt_congr rfl a

/-- `pc` does not wrap inside memory. -/
theorem toNat_pc_afterNoOps {s : State} {k : Nat} (h : s.pc.toNat + 2 * k ≤ 4096) :
    (s.afterNoOps k).pc.toNat = s.pc.toNat + 2 * k := by
  simp only [State.afterNoOps, BitVec.toNat_add, BitVec.toNat_ofNat]
  omega

theorem pc_add_add (pc : Word) (j k : Nat) :
    pc + BitVec.ofNat 16 (2 * j) + BitVec.ofNat 16 (2 * k) = pc + BitVec.ofNat 16 (2 * (j + k)) := by
  rw [BitVec.add_assoc, ← BitVec.ofNat_add, Nat.mul_add]

theorem noOpEvent_afterNoOps {s : State} {k : Nat} (h : s.pc.toNat + 2 * k ≤ 4096) (j : Nat) :
    (s.afterNoOps k).noOpEvent j = s.noOpEvent (k + j) := by
  have hpc : (s.afterNoOps k).pc + BitVec.ofNat 16 (2 * j) = s.pc + BitVec.ofNat 16 (2 * (k + j)) :=
    pc_add_add s.pc k j
  rw [State.noOpEvent, State.noOpEvent, hpc, wordAt_afterNoOps, toNat_pc_afterNoOps h, Nat.mul_add, Nat.add_assoc]

/-- `j` words and then `k` more are `j + k` words. -/
theorem afterNoOps_afterNoOps {s : State} {j : Nat} (h : s.pc.toNat + 2 * j ≤ 4096) (k : Nat) :
    (s.afterNoOps j).afterNoOps k = s.afterNoOps (j + k) := by
  have hpc : (s.afterNoOps j).pc + BitVec.ofNat 16 (2 * k) = s.pc + BitVec.ofNat 16 (2 * (j + k)) :=
    pc_add_add s.pc j k
  have hdiag : (s.afterNoOps j).diag ++ (List.range k).map (s.afterNoOps j).noOpEvent =
      s.diag ++ (List.range (j + k)).map s.noOpEvent := by
    rw [funext (noOpEvent_afterNoOps h), List.range_add, List.map_append, List.map_map, ← List.append_assoc]
    rfl
  rw [State.afterNoOps, hpc, hdiag]
  rfl

theorem State.NoOpsAhead.canFetch {s : State} {k : Nat} (h : s.NoOpsAhead (k + 1)) : s.CanFetch := by
  have hfits := h.fits
  exact ⟨h.live, (pcValid_iff s.pc).mpr ⟨by omega, h.even⟩⟩

theorem State.NoOpsAhead.step_eq {s : State} {k : Nat} (h : s.NoOpsAhead (k + 1)) :
    step s = .next (s.afterNoOps 1) := by
  have hword : (decode (s.wordAt s.pc.toNat)).isUnimplemented = true := h.words 0 k.succ_pos
  have hevent : s.noOpEvent 0 = ⟨.unimplemented, s.pc, some (s.wordAt s.pc.toNat)⟩ := by
    rw [State.noOpEvent, Nat.mul_zero, BitVec.add_zero, Nat.add_zero]
  rw [step_of_canFetch s h.canFetch, exec_decode_of_isUnimplemented hword, fetchAddr_advance, ← hevent]
  rfl

theorem State.NoOpsAhead.afterOne {s : State} {k : Nat} (h : s.NoOpsAhead (k + 1)) :
    (s.afterNoOps 1).NoOpsAhead k := by
  obtain ⟨hlive, heven, hfits, hwords⟩ := h
  have hpc : (s.afterNoOps 1).pc.toNat = s.pc.toNat + 2 * 1 := toNat_pc_afterNoOps (by omega)
  refine ⟨hlive, by omega, by omega, fun j hj => ?_⟩
  have hj' : 1 + j < k + 1 := by omega
  simpa only [wordAt_afterNoOps, hpc, Nat.add_assoc, Nat.mul_add] using hwords (1 + j) hj'

theorem State.NoOpsAhead.run_eq {s : State} {k : Nat} (h : s.NoOpsAhead (k + 1)) :
    Sys2Proof.core.run (k + 1) s = .next (s.afterNoOps (k + 1)) := by
  induction k generalizing s with
  | zero => exact run_of_next Sys2Proof.core 0 s _ h.step_eq
  | succ k ih =>
    have hfits : s.pc.toNat + 2 * 1 ≤ 4096 := by have := h.fits; omega
    calc Sys2Proof.core.run (k + 1 + 1) s
        = Sys2Proof.core.run (k + 1) (s.afterNoOps 1) := run_of_next Sys2Proof.core (k + 1) s _ h.step_eq
      _ = .next ((s.afterNoOps 1).afterNoOps (k + 1)) := ih h.afterOne
      _ = .next (s.afterNoOps (k + 1 + 1)) := by rw [afterNoOps_afterNoOps hfits, Nat.add_comm 1]

/-- Settles O36: the masks leave out every implemented row, and the run is an induction on the number of words that
moves each event of the rest by one word. -/
theorem unimplementedRunIsNoOps : Obligations.UnimplementedRunIsNoOps := by
  refine ⟨fun w s hcls hret hfamily => ?_, fun k s hlive heven hfits hwords => ?_⟩
  · have hun : (decode w).isUnimplemented = true :=
      isUnimplemented_decode (inNoImplementedRow_of_masks hcls hret hfamily)
    exact ⟨hun, exec_decode_of_isUnimplemented hun s⟩
  · exact State.NoOpsAhead.run_eq ⟨hlive, heven, hfits, hwords⟩

end Sys2Proof.Machine

/-! PROOF. The encoding (R70 to R77): the decoder and the encoder are inverse to each other, and the decoder agrees with
the opcode map read as a table of matches and masks. -/

namespace Sys2Proof

/-! ### Decoding a packed word -/

theorem fieldNNN_setWidth (w : Word) : (fieldNNN w).setWidth 8 = fieldNN w := by
  rw [← fieldNN_packNNN_setWidth (fieldF w) (fieldNNN w), packNNN_fields]

@[simp] theorem fieldF_packXNN (f x : Nibble) (nn : Byte) : fieldF (packXNN f x nn) = f := fieldF_packNNN f _

@[simp] theorem fieldX_packXNN (f x : Nibble) (nn : Byte) : fieldX (packXNN f x nn) = x := fieldX_packNNN f x nn

@[simp] theorem fieldNN_packXNN (f x : Nibble) (nn : Byte) : fieldNN (packXNN f x nn) = nn := fieldNN_packNNN f x nn

@[simp] theorem fieldF_packXYN (f x y n : Nibble) : fieldF (packXYN f x y n) = f := fieldF_packNNN f _

@[simp] theorem fieldX_packXYN (f x y n : Nibble) : fieldX (packXYN f x y n) = x := fieldX_packNNN f x (y ++ n)

@[simp] theorem fieldY_packXYN (f x y n : Nibble) : fieldY (packXYN f x y n) = y := fieldY_packNNN f x y n

@[simp] theorem fieldN_packXYN (f x y n : Nibble) : fieldN (packXYN f x y n) = n := fieldN_packNNN f x y n

/-- The last arm of the decoder is family F. -/
theorem decode_of_familyF {w : Word} (hf : fieldF w = 0xF#4) :
    decode w = .unimplF (fieldX w) (fieldY w) (fieldN w) := by
  rw [decode, hf]
  rfl

theorem decode_packXNN_cls (x : Nibble) : decode (packXNN 0x0#4 x 0xE0#8) = .cls x := by
  rw [decode_of_cls_fields (fieldF_packXNN _ _ _) (fieldNN_packXNN _ _ _), fieldX_packXNN]

theorem decode_packXNN_ret (x : Nibble) : decode (packXNN 0x0#4 x 0xEE#8) = .ret x := by
  have hne : (0xEE#8 : Byte) ≠ 0xE0#8 := by decide
  simp only [decode, decodeFamily0, fieldF_packXNN, fieldNN_packXNN, fieldX_packXNN, if_neg hne, if_true]

/-- A family-0 word that is neither CLS nor RET (R161). -/
theorem decode_packNNN_unimpl0 {nnn : Addr12} (h : (Instr.unimpl0 nnn).wellFormed = true) :
    decode (packNNN 0x0#4 nnn) = .unimpl0 nnn := by
  obtain ⟨hcls, hret⟩ : nnn.setWidth 8 ≠ 0xE0#8 ∧ nnn.setWidth 8 ≠ 0xEE#8 := by
    simpa only [Instr.wellFormed, Bool.and_eq_true, bne_iff_ne] using h
  simp only [decode, decodeFamily0, fieldF_packNNN, fieldNN_packNNN_setWidth, fieldNNN_packNNN, hcls, hret, if_false]

/-- Settles O1: the decoder reads the family and then the very fields the encoder packed; only family 0 asks more, and
there well-formedness keeps the three rows apart. -/
theorem decodeOfEncode : Obligations.DecodeOfEncode := by
  intro i hwf
  cases i with
  | cls x => exact decode_packXNN_cls x
  | ret x => exact decode_packXNN_ret x
  | unimpl0 nnn => exact decode_packNNN_unimpl0 hwf
  | jp | call | ldIndex => simp only [encode, BitVec.ofNat_eq_ofNat, decode, fieldF_packNNN, fieldNNN_packNNN]
  | ldImm | addImm =>
    simp only [encode, BitVec.ofNat_eq_ofNat, decode, fieldF_packXNN, fieldX_packXNN, fieldNN_packXNN]
  | unimpl3 | unimpl4 | unimpl5 | unimpl8 | unimpl9 | unimplB | unimplC | drw | unimplE =>
    simp only [encode, BitVec.ofNat_eq_ofNat, decode, fieldF_packXYN, fieldX_packXYN, fieldY_packXYN, fieldN_packXYN]
  | unimplF =>
    simp only [encode, BitVec.ofNat_eq_ofNat, decode_of_familyF, fieldF_packXYN, fieldX_packXYN, fieldY_packXYN,
      fieldN_packXYN]

/-! ### Every word decodes to a well-formed instruction -/

theorem wellFormed_decodeFamily0 (w : Word) : (decodeFamily0 w).wellFormed = true := by
  unfold decodeFamily0
  split
  · rfl
  · next hcls =>
    split
    · rfl
    · next hret =>
      simp only [Instr.wellFormed, fieldNNN_setWidth, Bool.and_eq_true, bne_iff_ne]
      exact ⟨hcls, hret⟩

theorem wellFormed_decode (w : Word) : (decode w).wellFormed = true := by
  unfold decode
  split
  case h_1 => exact wellFormed_decodeFamily0 w
  all_goals rfl

/-- Settles O2: only family 0 can build a term of another row, and its decoder tests for that. -/
theorem encodeOfDecode : Obligations.EncodeOfDecode := fun w => ⟨wellFormed_decode w, encode_decode w⟩

/-! ### The decoder and the opcode map -/

/-- The word of a well-formed instruction selects the row of its mnemonic: the laws of the rows together. -/
theorem selectRow_encode {i : Instr} (h : i.wellFormed = true) :
    (selectRow (encode i)).map OpcodeRow.mnemonic = some i.mnemonic := by
  cases i with
  | cls x => exact Laws.EncodesInItsRow.cls x h
  | ret x => exact Laws.EncodesInItsRow.ret x h
  | unimpl0 nnn => exact Laws.EncodesInItsRow.unimpl0 nnn h
  | jp nnn => exact Laws.EncodesInItsRow.jp nnn h
  | call nnn => exact Laws.EncodesInItsRow.call nnn h
  | unimpl3 x y n => exact Laws.EncodesInItsRow.unimpl3 x y n h
  | unimpl4 x y n => exact Laws.EncodesInItsRow.unimpl4 x y n h
  | unimpl5 x y n => exact Laws.EncodesInItsRow.unimpl5 x y n h
  | ldImm x nn => exact Laws.EncodesInItsRow.ldImm x nn h
  | addImm x nn => exact Laws.EncodesInItsRow.addImm x nn h
  | unimpl8 x y n => exact Laws.EncodesInItsRow.unimpl8 x y n h
  | unimpl9 x y n => exact Laws.EncodesInItsRow.unimpl9 x y n h
  | ldIndex nnn => exact Laws.EncodesInItsRow.ldIndex nnn h
  | unimplB x y n => exact Laws.EncodesInItsRow.unimplB x y n h
  | unimplC x y n => exact Laws.EncodesInItsRow.unimplC x y n h
  | drw x y n => exact Laws.EncodesInItsRow.drw x y n h
  | unimplE x y n => exact Laws.EncodesInItsRow.unimplE x y n h
  | unimplF x y n => exact Laws.EncodesInItsRow.unimplF x y n h

/-- Settles O3: a word is the encoding of its decoded instruction, whose word selects its own row. -/
theorem decodeSelectsTableRow : Obligations.DecodeSelectsTableRow := fun w => by
  simpa only [encode_decode] using selectRow_encode (wellFormed_decode w)

/-! ### Exactly one row takes a word -/

/-- A row outside family 0 takes the words of its family: R74 excludes nothing there. -/
theorem takes_of_family_row {r : OpcodeRow} (h : r ∈ opcodeMap.drop 3) (w : Word) :
    r.takes w = (fieldF w == fieldF r.pattern) := by
  have hrow : ∀ r ∈ opcodeMap.drop 3,
      r.mask = 0xF000#16 ∧ packNNN (fieldF r.pattern) 0#12 = r.pattern ∧ r.pattern ≠ 0x0000#16 := by decide
  obtain ⟨hmask, hpattern, hne⟩ := hrow r h
  have hmatches : r.matches w = (fieldF w == fieldF r.pattern) := by
    obtain ⟨m, p, k⟩ := r
    cases hmask
    exact familyRow_matches m p w hpattern
  rw [OpcodeRow.takes, hmatches, bne_iff_ne.mpr hne, Bool.true_or, Bool.and_true]

/-- The rows of family 0 take a word by its family and its low byte, with the exclusion of R74. -/
theorem takes_of_family0_rows (w : Word) :
    OpcodeRow.takes ⟨"CLS", 0x00E0#16, 0xF0FF#16⟩ w = (fieldF w == 0x0#4 && fieldNN w == 0xE0#8) ∧
    OpcodeRow.takes ⟨"RET", 0x00EE#16, 0xF0FF#16⟩ w = (fieldF w == 0x0#4 && fieldNN w == 0xEE#8) ∧
    OpcodeRow.takes ⟨"UNIMPL.0", 0x0000#16, 0xF000#16⟩ w =
      (fieldF w == 0x0#4 && (fieldNN w != 0xE0#8 && fieldNN w != 0xEE#8)) := by
  refine ⟨?_, ?_, ?_⟩
  · rw [OpcodeRow.takes, exactRow_matches _ _ _ (by decide)]
    exact Bool.and_true _
  · rw [OpcodeRow.takes, exactRow_matches _ _ _ (by decide)]
    exact Bool.and_true _
  · rw [OpcodeRow.takes, familyRow_matches _ _ _ (by decide)]
    rfl

/-- Outside family 0 the word's own family row takes it and no other: there are 15 rows for the 15 families. -/
theorem filter_takes_of_family {w : Word} (hf : fieldF w ≠ 0x0#4) :
    ∃ r, opcodeMap.filter (·.takes w) = [r] ∧ selectRow w = some r := by
  have hb : (fieldF w == 0x0#4) = false := beq_eq_false_iff_ne.mpr hf
  obtain ⟨hcls, hret, hrest⟩ := takes_of_family0_rows w
  rw [hb, Bool.false_and] at hcls hret hrest
  have hnone : (opcodeMap.take 3).filter (·.takes w) = [] := by
    simp only [opcodeMap, List.cons_append, List.take_succ_cons, List.take_zero, List.filter_cons, hcls, hret, hrest,
      Bool.false_eq_true, if_false, List.filter_nil]
  have hone : ∀ f : Nibble, f ≠ 0x0#4 → ((opcodeMap.drop 3).filter (fun r => f == fieldF r.pattern)).length = 1 := by
    decide
  obtain ⟨r, hr⟩ := List.length_eq_one_iff.mp (hone (fieldF w) hf)
  refine ⟨r, ?_, ?_⟩
  · rw [← List.take_append_drop 3 opcodeMap, List.filter_append, hnone, List.nil_append,
      List.filter_congr fun _ hr => takes_of_family_row hr w, hr]
  · rw [selectRow_of_family w hf, ← List.head?_filter, hr, List.head?_cons]

/-- In family 0 the low byte decides between the three rows. -/
theorem filter_takes_of_family0 {w : Word} (hf : fieldF w = 0x0#4) :
    ∃ r, opcodeMap.filter (·.takes w) = [r] ∧ r.mnemonic = (decodeFamily0 w).mnemonic := by
  obtain ⟨hcls, hret, hrest⟩ := takes_of_family0_rows w
  rw [hf, beq_self_eq_true, Bool.true_and] at hcls hret hrest
  have hnone : ((opcodeMap.drop 3).filter (fun r => 0x0#4 == fieldF r.pattern)) = [] := by decide
  rw [← List.take_append_drop 3 opcodeMap, List.filter_append,
    List.filter_congr fun _ hr => takes_of_family_row hr w, hf, hnone, List.append_nil]
  simp only [opcodeMap, List.cons_append, List.take_succ_cons, List.take_zero, List.filter_cons, hcls, hret, hrest,
    List.filter_nil, decodeFamily0]
  by_cases h1 : fieldNN w = 0xE0#8
  · exact ⟨⟨"CLS", 0x00E0#16, 0xF0FF#16⟩, by simp [h1], by simp [h1, Instr.mnemonic]⟩
  · by_cases h2 : fieldNN w = 0xEE#8
    · exact ⟨⟨"RET", 0x00EE#16, 0xF0FF#16⟩, by simp [h2], by simp [h2, Instr.mnemonic]⟩
    · exact ⟨⟨"UNIMPL.0", 0x0000#16, 0xF000#16⟩, by simp [h1, h2], by simp [h1, h2, Instr.mnemonic]⟩

/-- Settles O4: outside family 0 the one row that takes a word is the row it selects; in family 0 the exclusion of R74
is the decoder's own test. -/
theorem opcodeRowsPartitionWords : Obligations.OpcodeRowsPartitionWords := by
  intro w
  by_cases hf : fieldF w = 0x0#4
  · have hdecode : decode w = decodeFamily0 w := by simp only [decode, hf]
    rw [hdecode]
    exact filter_takes_of_family0 hf
  · obtain ⟨r, hfilter, hselect⟩ := filter_takes_of_family hf
    have hmnemonic := decodeSelectsTableRow w
    rw [hselect, Option.map_some, Option.some.injEq] at hmnemonic
    exact ⟨r, hfilter, hmnemonic⟩

/-! ### Bytes and sample words -/

/-- Settles O6: the three shapes of a byte sequence that `decodeBytes` tells apart. -/
theorem decodeTakesTwoBytes : Obligations.DecodeTakesTwoBytes := ⟨fun _ _ _ => rfl, fun _ => rfl, rfl⟩

/-- Settles O7: eleven closed words. -/
theorem sampleWordsDecode : Obligations.SampleWordsDecode := by
  unfold Obligations.SampleWordsDecode
  decide

end Sys2Proof

/-! PROOF. The invariant of every state a run reaches (R22, R25 to R29, D7): it holds after reset, and every step and every
other move of the host keep it. -/

namespace Sys2Proof.Machine

/-! ### Reset -/

/-- The display with every cell off (log 5). -/
theorem emptyDisplay_wf (p : Config.Params) : Framebuffer.wf p [] :=
  ⟨⟨List.Pairwise.nil, fun _ h => absurd h List.not_mem_nil⟩, fun _ h => absurd h List.not_mem_nil⟩

theorem inv_resetWith {p : Config.Params} (hp : p.wf) : (State.resetWith p).Inv := by
  refine ⟨hp, reset_memory_wf, emptyDisplay_wf p, Nat.zero_le _, Nat.zero_le _, fun k hk => ?_⟩
  simp [State.resetWith, returnAddress]

/-- Settles O39: after reset the display has its cells, the lists are empty, `sp` and `I` are 0, and every slot holds
the return address 0. -/
theorem resetHasInvariant : Obligations.ResetHasInvariant := ⟨fun _ => inv_resetWith, inv_resetWith (by decide)⟩

theorem slot_resetWith (p : Config.Params) {k : Nat} (h1 : 1 ≤ k) (h16 : k ≤ 16) :
    (State.resetWith p).slot k = some 0#16 := by
  rw [slot_exists _ k ⟨h1, h16⟩]
  simp [State.resetWith]

theorem reg_resetWith (p : Config.Params) (i : Nibble) : (State.resetWith p).reg i = 0#8 := by
  simp [State.reg, State.resetWith]

theorem regWritten_resetWith (p : Config.Params) (i : Nibble) :
    (State.resetWith p).regWritten[i.toNat]? = some false := by
  have hi : i.toNat < 16 := i.isLt
  simp [State.resetWith, hi]

/-- Settles O41: the lists are empty, and each vector is one value repeated. -/
theorem resetLeaves : Obligations.ResetLeaves := fun p =>
  ⟨fun _ => rfl, reg_resetWith p, rfl, rfl, rfl, fun _ => slot_resetWith p, rfl, rfl,
    pixel_of_fb_nil rfl, rfl, rfl, regWritten_resetWith p, rfl, rfl⟩

/-! ### What a step leaves in `sp`, `pc` and the stack -/

/-- The advanced `pc` is an address a CALL can push: it is even, and at most `0x1000` (R92, D7, D8). -/
theorem returnAddress_advance {s : State} (h : pcValid s.pc = true) : returnAddress s.advance.pc := by
  obtain ⟨hlt, heven⟩ := (pcValid_iff s.pc).mp h
  rw [advance_pc, returnAddress, BitVec.toNat_add, BitVec.toNat_ofNat]
  omega

theorem sp_pred_toNat {s : State} (h : s.sp ≠ 0#8) : (s.sp - 1).toNat = s.sp.toNat - 1 := by
  have hpos : s.sp.toNat ≠ 0 := fun h0 => h (BitVec.eq_of_toNat_eq h0)
  have hlt : s.sp.toNat < 256 := s.sp.isLt
  rw [BitVec.toNat_sub]
  simp only [BitVec.ofNat_eq_ofNat, BitVec.toNat_ofNat]
  omega

/-- A pushed value is on the new top slot, so the slots of the invariant stay return addresses. -/
theorem returnAddress_push {s : State} (hslots : ∀ k (h : k < 16), returnAddress s.stack[k]) {v : Word}
    (hv : returnAddress v) : ∀ k (h : k < 16), returnAddress (s.push v).stack[k] := by
  intro k hk
  simp only [push_stack, Vector.getElem_setIfInBounds]
  split
  · exact hv
  · exact hslots k hk

/-- The top slot of the invariant's stack holds a return address (R27). -/
theorem returnAddress_of_slot {s : State} (hslots : ∀ k (h : k < 16), returnAddress s.stack[k]) {k : Nat} {w : Word}
    (h : s.slot k = some w) : returnAddress w := by
  rw [State.slot] at h
  split at h
  · cases h
  · obtain ⟨hk, rfl⟩ := Vector.getElem?_eq_some_iff.mp h
    exact hslots _ hk

/-! ### Every instruction and every step -/

/-- One case for each next state: most write no piece the invariant speaks of. -/
theorem execNext_keeps_inv {i : Instr} {s t : State} (hinv : s.Inv) (hpc : returnAddress s.pc) (h : ExecNext s i t) :
    t.Inv := by
  obtain ⟨hparams, hmem, hfb, hsp, hindex, hslots⟩ := hinv
  cases h with
  | cls => exact ⟨hparams, hmem, emptyDisplay_wf _, hsp, hindex, hslots⟩
  | ret _ w hne _ =>
    have hpop : (s.sp - 1).toNat ≤ 16 := by rw [sp_pred_toNat hne]; exact (Nat.sub_le _ _).trans hsp
    exact ⟨hparams, hmem, hfb, hpop, hindex, hslots⟩
  | call _ hroom =>
    have hpush : (s.sp + 1).toNat ≤ 16 := by rw [sp_succ_toNat s hroom]; exact hroom
    exact ⟨hparams, hmem, hfb, hpush, hindex, returnAddress_push hslots hpc⟩
  | ldIndex a =>
    have hlt : (operandNNN a).toNat ≤ 0xFFF := by rw [toNat_operandNNN]; exact Nat.le_of_lt_succ a.isLt
    exact ⟨hparams, hmem, hfb, hsp, hlt, hslots⟩
  | drw x y n => exact ⟨hparams, hmem, drawBlit_wf x y n s hparams hfb, hsp, hindex, hslots⟩
  | underflow | jp | overflow | ldImm | addImm | unimplemented => exact ⟨hparams, hmem, hfb, hsp, hindex, hslots⟩

/-- Settles O38: a failed check writes none of the invariant's pieces, and a fetched instruction runs on an advanced
`pc` that is a return address. -/
theorem stepKeepsInvariant : Obligations.StepKeepsInvariant := by
  intro s t hinv hstep
  rcases step_next_cases hstep with ⟨_, _, rfl⟩ | ⟨hfetch, hexec⟩
  · exact hinv
  · exact execNext_keeps_inv (s := s.advance) hinv (returnAddress_advance hfetch.2) (exec_next_cases hexec)

/-! ### Every move of the host -/

/-- Bytes written into memory touch no other piece of the invariant. -/
theorem writeBytes_keeps_inv {s : State} (hinv : s.Inv) (a : Nat) (bs : List Byte) : (s.writeBytes a bs).Inv := by
  obtain ⟨hparams, hmem, hrest⟩ := hinv
  rw [writeBytes_fields]
  exact ⟨hparams, writeBytes_wf bs s hmem a, hrest⟩

theorem writeTimer_keeps_inv {s : State} (hinv : s.Inv) (which : TimerName) (v : Byte) : (s.writeTimer which v).Inv := by
  cases which with
  | delay | sound => exact hinv

/-- Settles O54: a step keeps the invariant, a reset builds it anew from the same parameters, and what the other moves
write is memory, through canonical writes, or no piece of the invariant. -/
theorem everyMoveKeepsInvariant : Obligations.EveryMoveKeepsInvariant := by
  intro move m m' hinv hdrive
  cases drive_next_cases hdrive with
  | load image => exact writeBytes_keeps_inv hinv _ image
  | writeByte a v => exact writeBytes_keeps_inv hinv a.toNat [v]
  | step keys t hstep => exact stepKeepsInvariant (m.core.setKeys keys) t hinv hstep
  | writeTimer which v => exact writeTimer_keeps_inv hinv which v
  | setRunState => exact hinv
  | reset => exact inv_resetWith hinv.1

/-! ### The range of `pc` -/

/-- From an advanced `pc` in the range no instruction leaves it: a jump has 12 bits, and RET takes a return address. -/
theorem execNext_pc_le {i : Instr} {s t : State} (hslots : ∀ k (h : k < 16), returnAddress s.stack[k])
    (hpc : s.pc.toNat ≤ 0x1000) (h : ExecNext s i t) : t.pc.toNat ≤ 0x1000 := by
  have hjump : ∀ a : Addr12, (operandNNN a).toNat ≤ 0x1000 := fun a => by
    rw [toNat_operandNNN]
    exact a.isLt.le
  cases h with
  | jp a | call a => exact hjump a
  | ret _ w _ hslot => exact (returnAddress_of_slot hslots hslot).2
  | cls | underflow | overflow | ldImm | addImm | ldIndex | drw | unimplemented => exact hpc

/-- Settles O40: a failed check leaves `pc` and the parameters alone, and past the check the advanced `pc` is in the
range. -/
theorem pcStaysInRange : Obligations.PcStaysInRange := by
  intro s t ⟨_, _, _, _, _, hslots⟩ hrange hstep
  rcases step_next_cases hstep with ⟨_, _, rfl⟩ | ⟨hfetch, hexec⟩
  · exact hrange
  · exact .inl (execNext_pc_le (s := s.advance) hslots (returnAddress_advance hfetch.2).2 (exec_next_cases hexec))

end Sys2Proof.Machine

/-! PROOF. One step (R90 to R97): when it exists, what it runs, and how it can end. -/

namespace Sys2Proof.Machine

/-! ### The step and the fetch -/

/-- Settles O10: Halted is the first thing a step asks for. -/
theorem haltedHasNoStep : Obligations.HaltedHasNoStep := fun _ h => if_pos h

/-- Settles O8: the two bytes at `pc` are the fetched word, whose decoding the hypothesis names. -/
theorem stepRunsDecoded : Obligations.StepRunsDecoded := by
  intro s i rest hfetch hdecode
  cases hdecode
  exact step_of_canFetch s hfetch

/-- Settles O11: the fetch and the check test the same two things of an address. -/
theorem fetchIsBigEndianOrAddressFault : Obligations.FetchIsBigEndianOrAddressFault := by
  intro s a
  refine ⟨fun hbad => if_pos hbad, fun hgood => if_neg hgood, ?_⟩
  rw [pcValid_eq_false_iff]
  omega

/-! ### Instructions that complete -/

/-- JP, CALL and RET aside, an instruction whose reads are permitted completes and keeps the advanced `pc` (R99). -/
theorem exec_completes {i : Instr} {s : State} (hpc : i.writesPc = false) (hread : s.Readable i) :
    ∃ t, exec i s = .next t ∧ t.pc = s.pc ∧ t.result = .ok := by
  cases i with
  | addImm => exact ⟨_, exec_addImm_of_readable hread, rfl, rfl⟩
  | drw => exact ⟨_, exec_drw_of_readable hread, rfl, rfl⟩
  | cls | ldImm | ldIndex => exact ⟨_, rfl, rfl, rfl⟩
  | unimpl0 | unimpl3 | unimpl4 | unimpl5 | unimpl8 | unimpl9 | unimplB | unimplC | unimplE | unimplF =>
    exact ⟨_, rfl, rfl, rfl⟩
  | ret | jp | call => cases hpc

/-- Settles O13: the instruction completes on the advanced `pc`, and a valid `pc` is too low to wrap (D8). -/
theorem pcAdvancesByTwo : Obligations.PcAdvancesByTwo := by
  intro s hfetch hpc hread
  obtain ⟨t, hexec, htpc, hok⟩ := exec_completes (s := s.advance) hpc hread
  refine ⟨t, (step_of_canFetch s hfetch).trans hexec, htpc, ?_, hok⟩
  obtain ⟨hlt, -⟩ := (pcValid_iff s.pc).mp hfetch.2
  rw [htpc, advance_pc, BitVec.toNat_add, BitVec.toNat_ofNat]
  omega

/-! ### When a step exists -/

/-- In a state with `sp` a depth a live machine steps, or meets a read R37 does not permit. -/
theorem step_exists_or_unwrittenRead {s : State} (hsp : s.sp.toNat ≤ 16) (hlive : s.runState ≠ .halted) :
    (∃ t, step s = .next t) ∨
    (step s = .fault .unwrittenRead ∧ ¬ s.Readable (decode (s.wordAt s.pc.toNat))) := by
  cases hpc : pcValid s.pc with
  | false => exact .inl ⟨_, step_of_not_pcValid s hlive hpc⟩
  | true =>
    rw [step_of_canFetch s ⟨hlive, hpc⟩]
    rcases exec_stop_cases (decode (s.wordAt s.pc.toNat)) s.advance with hnext | hread | ⟨_, hdeep⟩
    · exact .inl hnext
    · exact .inr hread
    · exact absurd hdeep (Nat.not_lt.mpr hsp)

/-- Settles O14: `zero` permits every read, and the invariant gives every slot that CALL and RET address. -/
theorem liveMachineAlwaysSteps : Obligations.LiveMachineAlwaysSteps := by
  intro s ⟨_, _, _, hsp, _, _⟩ hlive
  rcases step_exists_or_unwrittenRead hsp hlive with hnext | ⟨hstop, hread⟩
  · exact ⟨fun _ => hnext, .inl hnext⟩
  · exact ⟨fun hzero => absurd (readable_of_zero s _ hzero) hread, .inr hstop⟩

/-! ### How an instruction and a step end -/

/-- An instruction that answers a next state ended `Ok`, with no event but that of an unimplemented word, or took one
of the two stack faults (R95, R160, R184, R185). -/
theorem execNext_result {i : Instr} {s t : State} (h : ExecNext s i t) :
    (t.result = .ok ∧ t.runState = s.runState ∧
      t.diag = if i.isUnimplemented then s.diag ++ [⟨.unimplemented, s.fetchAddr, some (encode i)⟩] else s.diag) ∨
    (∃ k, (k = .stackOverflow ∨ k = .stackUnderflow) ∧ t = s.takeFatal k s.fetchAddr (some (encode i))) := by
  cases h with
  | underflow => exact .inr ⟨_, .inr rfl, rfl⟩
  | overflow => exact .inr ⟨_, .inl rfl, rfl⟩
  | unimplemented i hun => exact .inl ⟨rfl, rfl, (if_pos hun).symm⟩
  | cls | ret | jp | call | ldImm | addImm | ldIndex | drw => exact .inl ⟨rfl, rfl, rfl⟩

/-- The ends of a step that answers a next state: the two kinds of fatal fault with all they leave, and what is said of
a completed instruction's result, run-state and events. -/
inductive StepEnd (s : State) : State → Prop where
  | badPc : StepEnd s (s.takeFatal .invalidProgramCounter s.pc none)
  | stackFault (k : FatalKind) : k = .stackOverflow ∨ k = .stackUnderflow →
      StepEnd s (s.advance.takeFatal k s.pc (some (s.wordAt s.pc.toNat)))
  | completed (t : State) : t.result = .ok → t.runState = s.runState → s.runState ≠ .halted →
      t.diag = (if (decode (s.wordAt s.pc.toNat)).isUnimplemented then
        s.diag ++ [⟨.unimplemented, s.pc, some (s.wordAt s.pc.toNat)⟩] else s.diag) → StepEnd s t

theorem stepEnd_of_step {s t : State} (h : step s = .next t) : StepEnd s t := by
  rcases step_next_cases h with ⟨_, _, rfl⟩ | ⟨hfetch, hexec⟩
  · exact .badPc
  · rcases execNext_result (exec_next_cases hexec) with ⟨hok, hrun, hdiag⟩ | ⟨k, hk, rfl⟩
    · rw [encode_decode, fetchAddr_advance] at hdiag
      exact .completed t hok hrun hfetch.1 hdiag
    · rw [encode_decode, fetchAddr_advance]
      exact .stackFault k hk

/-- Settles O12: neither result is that of an end of a step. -/
theorem unreachableResults : Obligations.UnreachableResults := by
  intro s t hstep
  cases stepEnd_of_step hstep with
  | badPc => exact ⟨by simp, by simp⟩
  | stackFault k hk => rcases hk with rfl | rfl <;> exact ⟨by simp, by simp⟩
  | completed _ hok => rw [hok]; exact ⟨by simp, by simp⟩

/-- Settles O43: a fatal fault writes Halted with its result, and a completed step ran from a live machine. -/
theorem haltsExactlyOnFatal : Obligations.HaltsExactlyOnFatal := by
  intro s t hstep
  cases stepEnd_of_step hstep with
  | badPc => exact ⟨⟨fun _ => ⟨_, rfl⟩, fun _ => rfl⟩, fun hne => absurd rfl (hne .invalidProgramCounter)⟩
  | stackFault k => exact ⟨⟨fun _ => ⟨k, rfl⟩, fun _ => rfl⟩, fun hne => absurd rfl (hne k)⟩
  | completed _ hok hrun hlive =>
    refine ⟨⟨fun hhalted => absurd (hrun.symm.trans hhalted) hlive, fun ⟨k, hk⟩ => ?_⟩, fun _ => hrun⟩
    rw [hok] at hk
    cases hk

/-- Settles O44: only the two kinds of fatal end have a fatal result, and both leave the state of `takeFatal`. -/
theorem fatalFaultsArePrecise : Obligations.FatalFaultsArePrecise := by
  intro s t k hstep hresult
  cases stepEnd_of_step hstep with
  | badPc =>
    cases hresult
    rfl
  | stackFault k' hk =>
    cases hresult
    rcases hk with rfl | rfl <;> rfl
  | completed _ hok =>
    rw [hok] at hresult
    cases hresult

/-- Settles O45: the event of each end, with the fetch address and the fetched word, for decoding loses no bit. -/
theorem eventOfEachStep : Obligations.EventOfEachStep := by
  intro s t hstep
  cases stepEnd_of_step hstep with
  | badPc => exact .inr (.inr (.inl ⟨rfl, rfl⟩))
  | stackFault k hk => exact .inr (.inr (.inr ⟨k, hk, rfl, rfl⟩))
  | completed _ hok _ _ hdiag =>
    cases hun : (decode (s.wordAt s.pc.toNat)).isUnimplemented with
    | false => exact .inl ⟨hok, rfl, by rw [hdiag, hun]; rfl⟩
    | true => exact .inr (.inl ⟨hok, rfl, by rw [hdiag, hun]; rfl⟩)

end Sys2Proof.Machine

/-! PROOF. Frames: what an instruction and a step leave as it was (R94), the bookkeeping bits of R37, and what a step does
not read (R34, R96, R198). -/

namespace Sys2Proof.Machine

/-! ### What every instruction leaves as it was -/

theorem execNext_sameHostSide {i : Instr} {s t : State} (h : ExecNext s i t) : SameHostSide s t := by
  cases h <;> exact ⟨rfl, rfl, rfl, rfl⟩

theorem execNext_mem {i : Instr} {s t : State} (h : ExecNext s i t) : t.mem = s.mem := by
  cases h <;> rfl

theorem execNext_sameMemory {i : Instr} {s t : State} (h : ExecNext s i t) : SameMemory s t :=
  ⟨byteAt_congr (execNext_mem h), execNext_mem h⟩

/-! ### What one instruction writes -/

theorem execNext_index {i : Instr} {s t : State} (h : ExecNext s i t) (hne : ∀ nnn, i ≠ .ldIndex nnn) :
    t.index = s.index ∧ t.indexWritten = s.indexWritten := by
  cases h with
  | ldIndex a => exact absurd rfl (hne a)
  | cls | underflow | ret | jp | overflow | call | ldImm | addImm | drw | unimplemented => exact ⟨rfl, rfl⟩

theorem execNext_sameDisplay {i : Instr} {s t : State} (h : ExecNext s i t) (hcls : ∀ g, i ≠ .cls g)
    (hdrw : ∀ x y n, i ≠ .drw x y n) : SameDisplay s t := by
  have hkeep : t.fb = s.fb ∧ t.params = s.params := by
    cases h with
    | cls g => exact absurd rfl (hcls g)
    | drw x y n => exact absurd rfl (hdrw x y n)
    | underflow | ret | jp | overflow | call | ldImm | addImm | ldIndex | unimplemented => exact ⟨rfl, rfl⟩
  obtain ⟨hfb, hparams⟩ := hkeep
  exact ⟨pixel_congr hfb hparams, hfb⟩

theorem execNext_stack {i : Instr} {s t : State} (h : ExecNext s i t) (hne : ∀ nnn, i ≠ .call nnn) :
    t.stack = s.stack := by
  cases h with
  | call a => exact absurd rfl (hne a)
  | cls | underflow | ret | jp | overflow | ldImm | addImm | ldIndex | drw | unimplemented => rfl

/-- A CALL writes the one slot it pushes (R113); no other instruction writes any. -/
theorem execNext_slot_of_ne {i : Instr} {s t : State} (h : ExecNext s i t) {k : Nat} (hk : k ≠ s.sp.toNat + 1) :
    t.slot k = s.slot k := by
  cases h with
  | call a hroom => exact (slot_push s s.pc k hroom).trans (if_neg hk.symm)
  | cls | underflow | ret | jp | overflow | ldImm | addImm | ldIndex | drw | unimplemented => exact slot_congr rfl k

theorem execNext_sp {i : Instr} {s t : State} (h : ExecNext s i t) (hcall : ∀ nnn, i ≠ .call nnn)
    (hret : ∀ g, i ≠ .ret g) : t.sp = s.sp := by
  cases h with
  | call a => exact absurd rfl (hcall a)
  | ret g => exact absurd rfl (hret g)
  | cls | underflow | jp | overflow | ldImm | addImm | ldIndex | drw | unimplemented => rfl

theorem execNext_pc {i : Instr} {s t : State} (h : ExecNext s i t) (hpc : i.writesPc = false) : t.pc = s.pc := by
  cases h with
  | ret | jp | call => cases hpc
  | cls | underflow | overflow | ldImm | addImm | ldIndex | drw | unimplemented => rfl

theorem destRegs_of_isUnimplemented {i : Instr} (h : i.isUnimplemented = true) : i.destRegs = [] := by
  cases i with
  | unimpl0 | unimpl3 | unimpl4 | unimpl5 | unimpl8 | unimpl9 | unimplB | unimplC | unimplE | unimplF => rfl
  | cls | ret | jp | call | ldImm | addImm | ldIndex | drw => cases h

/-- One register write with result `Ok`: the other registers, and the bits. -/
theorem regs_setReg_ok {s u : State} (hregs : u.regs = s.regs) (hbits : u.regWritten = s.regWritten) (x : Nibble)
    (v : Byte) (j : Nibble) :
    (j ∉ [x] → (u.setReg x v).ok.reg j = s.reg j) ∧
    (u.setReg x v).ok.regWritten[j.toNat]? = if j ∈ [x] then some true else s.regWritten[j.toNat]? := by
  refine ⟨fun hj => ?_, ?_⟩
  · rw [reg_setReg_ok_of_ne u v (fun he => hj (List.mem_singleton.mpr he)), reg_congr hregs]
  · rw [ok_regWritten, regWritten_setReg, hbits]
    simp only [List.mem_singleton, eq_comm]

/-- The registers an instruction leaves as they were, and the bits it leaves and sets: a handler writes no register but
its destination. -/
theorem execNext_regs {i : Instr} {s t : State} (h : ExecNext s i t) (j : Nibble) :
    (j ∉ i.destRegs → t.reg j = s.reg j) ∧
    t.regWritten[j.toNat]? = if j ∈ i.destRegs then some true else s.regWritten[j.toNat]? := by
  cases h with
  | ldImm x v => exact regs_setReg_ok rfl rfl x v j
  | addImm x v => exact regs_setReg_ok rfl rfl x _ j
  | drw x y n => exact regs_setReg_ok (u := s.setFb _) rfl rfl flagReg _ j
  | unimplemented i hun =>
    rw [destRegs_of_isUnimplemented hun]
    exact ⟨fun _ => rfl, (if_neg List.not_mem_nil).symm⟩
  | cls | underflow | ret | jp | overflow | call | ldIndex =>
    exact ⟨fun _ => rfl, (if_neg List.not_mem_nil).symm⟩

/-- An instruction that is implemented and ended `Ok` emitted no event, and ended `Ok` it kept the run-state. -/
theorem execNext_of_result_ok {i : Instr} {s t : State} (h : ExecNext s i t) (hok : t.result = .ok) :
    (i.isUnimplemented = false → t.diag = s.diag) ∧ t.runState = s.runState := by
  rcases execNext_result h with ⟨_, hrun, hdiag⟩ | ⟨k, _, rfl⟩
  · exact ⟨fun hun => by rw [hdiag, hun]; rfl, hrun⟩
  · cases hok

/-- Settles O37: each clause is the frame of one piece of state. -/
theorem instructionFrame : Obligations.InstructionFrame := by
  intro i s t hexec
  have h := exec_next_cases hexec
  refine ⟨execNext_sameHostSide h, execNext_sameMemory h, fun j => (execNext_regs h j).1, execNext_index h,
    fun j hj => (execNext_regs h j).2.trans (if_neg hj), execNext_sameDisplay h,
    fun hne k => slot_congr (execNext_stack h hne) k, fun k => execNext_slot_of_ne h, execNext_sp h, execNext_pc h,
    fun hun hok => (execNext_of_result_ok h hok).1 hun, fun hok => (execNext_of_result_ok h hok).2⟩

/-- Settles O42: neither a failed check nor an instruction writes what is the host's. -/
theorem stepWritesNothingOfTheHost : Obligations.StepWritesNothingOfTheHost := by
  intro s t hstep
  rcases step_next_cases hstep with ⟨_, _, rfl⟩ | ⟨_, hexec⟩
  · exact ⟨⟨rfl, rfl, rfl, rfl⟩, fun _ => rfl, rfl⟩
  · have h := exec_next_cases hexec
    exact ⟨execNext_sameHostSide (s := s.advance) h, execNext_sameMemory (s := s.advance) h⟩

/-! ### The bookkeeping bits and the reads they permit (R37) -/

/-- The two reading instructions stop where a read is not permitted; the others read nothing R37 names. -/
theorem exec_of_not_readable {i : Instr} {s : State} (h : ¬ s.Readable i) : exec i s = .fault .unwrittenRead := by
  cases i with
  | addImm x v => exact (exec_addImm_eq x v s).trans (if_neg h)
  | drw x y n => exact (exec_drw_eq x y n s).trans (if_neg h)
  | cls | ret | jp | call | ldImm | ldIndex => exact absurd trivial h
  | unimpl0 | unimpl3 | unimpl4 | unimpl5 | unimpl8 | unimpl9 | unimplB | unimplC | unimplE | unimplF =>
    exact absurd trivial h

theorem exec_eq_unwrittenRead_iff (i : Instr) (s : State) : exec i s = .fault .unwrittenRead ↔ ¬ s.Readable i := by
  refine ⟨fun hstop => ?_, exec_of_not_readable⟩
  rcases exec_stop_cases i s with ⟨t, ht⟩ | ⟨_, hread⟩ | ⟨hslot, _⟩
  · rw [ht] at hstop
    cases hstop
  · exact hread
  · rw [hslot] at hstop
    cases hstop

theorem execNext_regWritten_iff {i : Instr} {s t : State} (h : ExecNext s i t) (j : Nibble) :
    t.regWritten[j.toNat]? = some true ↔ j ∈ i.destRegs ∨ s.regWritten[j.toNat]? = some true := by
  rw [(execNext_regs h j).2]
  by_cases hj : j ∈ i.destRegs
  · simp only [hj, if_true, true_or]
  · simp only [hj, if_false, false_or]

theorem execNext_indexWritten_iff {i : Instr} {s t : State} (h : ExecNext s i t) :
    t.indexWritten = true ↔ (∃ nnn, i = .ldIndex nnn) ∨ s.indexWritten = true := by
  by_cases hld : ∃ nnn, i = .ldIndex nnn
  · obtain ⟨nnn, rfl⟩ := hld
    cases h with
    | ldIndex => exact ⟨fun _ => .inl ⟨nnn, rfl⟩, fun _ => rfl⟩
    | unimplemented _ hun => cases hun
  · rw [(execNext_index h fun nnn he => hld ⟨nnn, he⟩).2]
    exact ⟨.inr, fun h => h.resolve_left hld⟩

/-- Where the policy is `fault` a register is readable exactly if its bit is set, and so is `I`. -/
theorem readable_iff_written {s : State} (h : s.params.unwrittenRead = .fault) (j : Nibble) :
    (s.regReadable j = true ↔ s.regWritten[j.toNat]? = some true) ∧ s.indexReadable = s.indexWritten := by
  refine ⟨?_, ?_⟩
  · rw [regReadable_iff, h]
    exact ⟨fun hr => hr.resolve_left (by decide), .inr⟩
  · rw [State.indexReadable, h]
    rfl

/-- Settles O59: the policy `zero`, the policy `fault`, the stop, the bits at reset, and the bits an instruction sets. -/
theorem unwrittenReadPolicy : Obligations.UnwrittenReadPolicy :=
  ⟨fun i s => readable_of_zero s i, fun j _ h => readable_iff_written h j, exec_eq_unwrittenRead_iff,
    fun p j => ⟨regWritten_resetWith p j, rfl⟩,
    fun _ _ _ hexec => ⟨execNext_regWritten_iff (exec_next_cases hexec), execNext_indexWritten_iff (exec_next_cases hexec)⟩⟩

end Sys2Proof.Machine

/-! PROOF. The call stack (R111, R113, R114, R184, R185), LD I (R132) and the unimplemented instructions (R160). -/

namespace Sys2Proof

theorem decode_of_ldIndex_family {w : Word} (hf : fieldF w = 0xA#4) : decode w = .ldIndex (fieldNNN w) := by
  simp only [decode, hf]

end Sys2Proof

namespace Sys2Proof.Machine

/-! ### RET -/

theorem sp_ne_zero_of_pos {s : State} (h : 1 ≤ s.sp.toNat) : s.sp ≠ 0#8 := fun h0 => by
  rw [h0] at h
  exact absurd h (by decide)

/-- There is no slot above 16. -/
theorem slot_of_deep {s : State} {k : Nat} (h : 16 < k) : s.slot k = none := by
  rw [State.slot, if_neg (by omega), Vector.getElem?_eq_none (by omega)]

theorem exec_ret_deep (g : Nibble) {s : State} (h : 16 < s.sp.toNat) : exec (.ret g) s = .fault .noStackSlot :=
  exec_ret_absent g s (sp_ne_zero_of_pos (by omega)) (slot_of_deep h)

/-- Settles O16: a depth from 1 to 16 names a slot, whose value the pop takes. -/
theorem retPopsTopOfStack : Obligations.RetPopsTopOfStack := by
  intro g s h1 h16
  have hne : s.sp ≠ 0#8 := sp_ne_zero_of_pos h1
  have hslot := slot_exists s s.sp.toNat ⟨h1, h16⟩
  exact ⟨_, hslot, sp_pred_toNat hne, exec_ret_pop g s _ hne hslot⟩

/-- Settles O17: the fault's event holds the word that RET was decoded from, its ignored bits among them. -/
theorem retOnEmptyStackUnderflows : Obligations.RetOnEmptyStackUnderflows := exec_ret_empty

/-! ### CALL -/

/-- Settles O19: the push writes the slot above the old top, and the jump overwrites `pc`. -/
theorem callPushesReturnAddress : Obligations.CallPushesReturnAddress := by
  intro nnn s hroom
  refine ⟨_, exec_call_push nnn s hroom, rfl, sp_succ_toNat s hroom, ?_, fun k hk => ?_⟩
  · exact (slot_push s s.pc _ hroom).trans (if_pos rfl)
  · exact (slot_push s s.pc k hroom).trans (if_neg hk.symm)

/-- Settles O20: as for RET, the event holds the word of the CALL. -/
theorem callOnFullStackOverflows : Obligations.CallOnFullStackOverflows := exec_call_full

/-- Settles O22: the slot above the sixteenth does not exist. -/
theorem noSlotAboveDepth : Obligations.NoSlotAboveDepth := fun nnn g s hdeep =>
  ⟨exec_call_absent nnn s hdeep, exec_ret_deep g hdeep⟩

/-- Only CALL and RET address a slot. -/
theorem stackInstr_of_noStackSlot {i : Instr} {s : State} (h : exec i s = .fault .noStackSlot) :
    (∃ g, i = .ret g) ∨ ∃ nnn, i = .call nnn := by
  cases i with
  | ret g => exact .inl ⟨g, rfl⟩
  | call nnn => exact .inr ⟨nnn, rfl⟩
  | addImm =>
    rw [exec_addImm_eq] at h
    split at h <;> cases h
  | drw =>
    rw [exec_drw_eq] at h
    split at h <;> cases h
  | cls | jp | ldImm | ldIndex => cases h
  | unimpl0 | unimpl3 | unimpl4 | unimpl5 | unimpl8 | unimpl9 | unimplB | unimplC | unimplE | unimplF => cases h

/-- Settles O21: the RET finds the address the CALL pushed on the slot the CALL made the top, and the new `sp` less 1
is the old one. -/
theorem callThenReturnRestores : Obligations.CallThenReturnRestores := by
  intro nnn g s hroom
  obtain ⟨t, hcall, ht, hsp, htop, -⟩ := callPushesReturnAddress nnn s hroom
  have htsp : t.sp = s.sp + 1 := by rw [ht]
  have hne : t.sp ≠ 0#8 := sp_ne_zero_of_pos (by omega)
  refine ⟨t, _, hcall, exec_ret_pop g { t with pc := t.pc + 2#16 } s.pc hne ?_, rfl, ?_, htop⟩
  · rw [← hsp] at htop
    exact htop
  · show t.sp - 1 = s.sp
    rw [htsp]
    exact BitVec.add_sub_cancel s.sp 1

/-! ### LD I -/

/-- Settles O25: the operand is zero-extended, and from `0xFFF` on the translator wraps. -/
theorem loadIndexSetsI : Obligations.LoadIndexSetsI := by
  refine ⟨fun w hw => decode_of_ldIndex_family (fieldF_of_and_familyMask hw),
    fun nnn s => ⟨rfl, toNat_operandNNN nnn⟩, fun s t hexec r => ?_⟩
  cases hexec
  rfl

/-! ### The unimplemented instructions -/

/-- Settles O34: each handler notes its own instruction and does nothing else. -/
theorem unimplementedInstructionsComplete : Obligations.UnimplementedInstructionsComplete := fun s =>
  have h : ∀ i : Instr, i.isUnimplemented = true → exec i s =
      .next { s with diag := s.diag ++ [⟨.unimplemented, s.pc - 2#16, some (encode i)⟩], result := .ok } :=
    fun _ hun => exec_of_isUnimplemented hun s
  ⟨fun _ => h _ rfl, fun _ _ _ => h _ rfl, fun _ _ _ => h _ rfl, fun _ _ _ => h _ rfl, fun _ _ _ => h _ rfl,
    fun _ _ _ => h _ rfl, fun _ _ _ => h _ rfl, fun _ _ _ => h _ rfl, fun _ _ _ => h _ rfl, fun _ _ _ => h _ rfl⟩

end Sys2Proof.Machine

/-! PROOF. What a step does not read (R34, R96, R195, R196, R198): the key snapshot, the timers, earlier events, and which
of the live run-states it is. All four are one statement, over a change of those pieces. -/

namespace Sys2Proof.Machine

/-! ### A change of what no step reads -/

/-- Other values for the pieces no step reads: the key port, the timers, events before the present ones, and another
name for each run-state. -/
structure Unread where
  keys : Vector Bool 16 → Vector Bool 16
  dt : Byte → Byte
  st : Byte → Byte
  earlier : List Event
  runState : RunState → RunState

/-- The state with those pieces changed. -/
def Unread.apply (u : Unread) (s : State) : State :=
  { s with
    keys := u.keys s.keys
    dt := u.dt s.dt
    st := u.st s.st
    diag := u.earlier ++ s.diag
    runState := u.runState s.runState }

/-- Halted keeps its name: a step does read whether the machine is Halted (R96), and a fatal fault writes it. -/
abbrev Unread.KeepsHalted (u : Unread) : Prop := ∀ r, u.runState r = .halted ↔ r = .halted

section
variable (u : Unread)

theorem Unread.emit_apply (s : State) (e : Event) : (u.apply s).emit e = u.apply (s.emit e) := by
  simp only [State.emit, Unread.apply, List.append_assoc]

theorem Unread.takeFatal_apply (hu : u.KeepsHalted) (s : State) (k : FatalKind) (a : Word) (w : Option Word) :
    (u.apply s).takeFatal k a w = u.apply (s.takeFatal k a w) := by
  have hhalted : u.runState .halted = .halted := (hu .halted).mpr rfl
  rw [State.takeFatal, Unread.emit_apply]
  simp only [State.takeFatal, State.setRunState, State.setResult, Unread.apply, hhalted]

theorem Unread.noteUnimplemented_apply (s : State) (i : Instr) :
    (u.apply s).noteUnimplemented i = u.apply (s.noteUnimplemented i) := by
  rw [State.noteUnimplemented, Unread.emit_apply]
  rfl

theorem Unread.readable_apply (s : State) (i : Instr) : (u.apply s).Readable i ↔ s.Readable i :=
  readable_congr rfl rfl rfl i

theorem Unread.drawBlit_apply (x y n : Nibble) (s : State) : drawBlit x y n (u.apply s) = drawBlit x y n s :=
  drawBlit_congr n rfl rfl rfl rfl rfl rfl

/-! ### Every instruction and every step -/

/-- A next state is reached from the changed state just so. -/
theorem Unread.exec_apply_of_next (hu : u.KeepsHalted) {i : Instr} {s t : State} (h : ExecNext s i t) :
    exec i (u.apply s) = .next (u.apply t) := by
  cases h with
  | underflow g h0 => exact (exec_ret_empty g (u.apply s) h0).trans (congrArg _ (u.takeFatal_apply hu s _ _ _))
  | overflow a h16 => exact (exec_call_full a (u.apply s) h16).trans (congrArg _ (u.takeFatal_apply hu s _ _ _))
  | ret g w h0 hw => exact exec_ret_pop g (u.apply s) w h0 hw
  | call a hroom => exact exec_call_push a (u.apply s) hroom
  | addImm x v hread => exact exec_addImm_of_readable ((u.readable_apply s _).mpr hread)
  | drw x y n hread =>
    rw [exec_drw x y n (u.apply s) ((u.readable_apply s _).mpr hread), u.drawBlit_apply]
    rfl
  | unimplemented i hun =>
    exact (exec_of_isUnimplemented hun (u.apply s)).trans (congrArg _ (u.noteUnimplemented_apply s i))
  | cls | jp | ldImm | ldIndex => rfl

theorem Unread.exec_apply (hu : u.KeepsHalted) (i : Instr) (s : State) :
    exec i (u.apply s) = mapNext u.apply (exec i s) := by
  rcases exec_stop_cases i s with ⟨t, hnext⟩ | ⟨hstop, hread⟩ | ⟨hstop, hdeep⟩
  · rw [hnext]
    exact u.exec_apply_of_next hu (exec_next_cases hnext)
  · rw [hstop]
    exact exec_of_not_readable fun h => hread ((u.readable_apply s i).mp h)
  · rw [hstop]
    rcases stackInstr_of_noStackSlot hstop with ⟨g, rfl⟩ | ⟨nnn, rfl⟩
    · exact exec_ret_deep g hdeep
    · exact exec_call_absent nnn (u.apply s) hdeep

theorem Unread.step_apply (hu : u.KeepsHalted) (s : State) : step (u.apply s) = mapNext u.apply (step s) := by
  by_cases hhalted : s.runState = .halted
  · rw [haltedHasNoStep s hhalted, haltedHasNoStep (u.apply s) ((hu _).mpr hhalted)]
    rfl
  · have hlive : (u.apply s).runState ≠ .halted := fun h => hhalted ((hu _).mp h)
    cases hpc : pcValid s.pc with
    | false =>
      rw [step_of_not_pcValid s hhalted hpc, step_of_not_pcValid (u.apply s) hlive hpc]
      exact congrArg _ (u.takeFatal_apply hu s _ _ _)
    | true =>
      rw [step_of_canFetch s ⟨hhalted, hpc⟩, step_of_canFetch (u.apply s) ⟨hlive, hpc⟩]
      exact u.exec_apply hu _ s.advance

end

/-! ### The obligations -/

/-- Settles O46: other keys and timers, no earlier event, and each run-state under its own name. -/
theorem keysAndTimersAreNotRead : Obligations.KeysAndTimersAreNotRead := fun s keys dt st =>
  Unread.step_apply ⟨fun _ => keys, fun _ => dt, fun _ => st, [], id⟩ (fun _ => Iff.rfl) s

/-- Settles O47: earlier events alone. -/
theorem diagnosticsAreNotRead : Obligations.DiagnosticsAreNotRead := fun s earlier =>
  Unread.step_apply ⟨id, id, id, earlier, id⟩ (fun _ => Iff.rfl) s

/-- Every live run-state under the name `r`, Halted under its own. -/
def Unread.liveAs (r : RunState) : Unread := ⟨id, id, id, [], fun r' => if r' = .halted then .halted else r⟩

theorem Unread.liveAs_keepsHalted {r : RunState} (hr : r ≠ .halted) : (Unread.liveAs r).KeepsHalted := fun r' => by
  by_cases h : r' = .halted
  · simp only [Unread.liveAs, h, if_true]
  · simp only [Unread.liveAs, h, if_false, hr]

theorem Unread.liveAs_apply (r : RunState) {s : State} (hlive : s.runState ≠ .halted) :
    (Unread.liveAs r).apply s = { s with runState := r } := by
  simp only [Unread.liveAs, Unread.apply, hlive, if_false, id, List.nil_append]

/-- Settles O48: the live run-states go under one name. -/
theorem runStateReadOnlyForHalted : Obligations.RunStateReadOnlyForHalted := fun s r hlive hr => by
  rw [← Unread.liveAs_apply r hlive]
  exact Unread.step_apply _ (Unread.liveAs_keepsHalted hr) s

end Sys2Proof.Machine

/-! PROOF. The draw (R140 to R152): a DRW against the list of its landings, cell by cell and pixel by pixel. -/

namespace Sys2Proof.Machine

/-! ### How often a cell is toggled -/

theorem mod_two_beq_one_add (m n : Nat) : ((m + n) % 2 == 1) = ((m % 2 == 1) ^^ (n % 2 == 1)) := by
  rcases Nat.mod_two_eq_zero_or_one m with hm | hm <;> rcases Nat.mod_two_eq_zero_or_one n with hn | hn <;>
    simp [Nat.add_mod, hm, hn]

/-- How many of the listed cells are stored at index `a` of the framebuffer. -/
def storedAt (p : Config.Params) (L : List (Nat × Nat)) (a : Nat) : Nat :=
  L.countP fun c => cellIndex p c.1 c.2 == a

/-- Placing lit pixels toggles each stored cell once for every pixel that is stored there (R147). -/
theorem get_foldl_place (p : Config.Params) (L : List (Nat × Nat)) {b : Blit} (hb : Cells.Canonical false b.fb)
    (a : Nat) :
    Cells.get false (L.foldl (place p) b).fb a = (Cells.get false b.fb a ^^ (storedAt p L a % 2 == 1)) := by
  induction L generalizing b with
  | nil => exact (Bool.xor_false _).symm
  | cons c L ih =>
    have hplace : Cells.get false (place p b c).fb a =
        (Cells.get false b.fb a ^^ (cellIndex p c.1 c.2 == a)) := by
      rw [place, get_blitPixel p c.1 c.2 true b hb]
      by_cases h : cellIndex p c.1 c.2 = a
      · rw [if_pos h, beq_iff_eq.mpr h]
      · rw [if_neg h, beq_eq_false_iff_ne.mpr h, Bool.xor_false]
    have hcount : storedAt p (c :: L) a = (if cellIndex p c.1 c.2 == a then 1 else 0) + storedAt p L a := by
      rw [storedAt, List.countP_cons, Nat.add_comm, storedAt]
    rw [List.foldl_cons, ih (place_canonical p c b hb), hplace, hcount, mod_two_beq_one_add, Bool.xor_assoc]
    cases cellIndex p c.1 c.2 == a <;> rfl

/-- Inside the display a cell is stored nowhere but at its own index (R28). -/
theorem storedAt_cellIndex {p : Config.Params} {L : List (Nat × Nat)} (hL : ∀ c ∈ L, c.2 < p.dispW) {c : Nat × Nat}
    (hc : c.2 < p.dispW) : storedAt p L (cellIndex p c.1 c.2) = L.count c := by
  refine List.countP_congr fun d hd => ?_
  rw [beq_iff_eq, beq_iff_eq]
  constructor
  · intro h
    obtain ⟨hrow, hcol⟩ := cellIndex_inj p (hL d hd) hc h
    exact Prod.ext hrow hcol
  · intro h
    rw [h]

/-! ### The display after a draw -/

theorem landings_lt_dispW {s : State} (hinv : s.Inv) (x y : Nibble) (height : Nat) :
    ∀ c ∈ s.landings x y height, c.2 < s.params.dispW :=
  fun _ hc => (landings_bounds hinv.1 hc).2

theorem canonical_fb_of_inv {s : State} (hinv : s.Inv) : Cells.Canonical false s.fb := by
  obtain ⟨-, -, ⟨hcanonical, -⟩, -⟩ := hinv
  exact hcanonical

/-- The framebuffer and the flag of a draw, from its landings. -/
theorem drawRows_eq_fold (x y n : Nibble) {s : State} (hinv : s.Inv) :
    (drawRows x y n.toNat s).fb = ((s.landings x y n.toNat).foldl (place s.params) ⟨s.fb, 0#8⟩).fb ∧
    (drawRows x y n.toNat s).reg 0xF#4 = ((s.landings x y n.toNat).foldl (place s.params) ⟨s.fb, 0#8⟩).vf := by
  rw [← drawBlit_eq_fold x y n s (canonical_fb_of_inv hinv)]
  exact ⟨drawRows_fb x y n s, drawRows_vf x y n s⟩

theorem pixel_drawRows (x y n : Nibble) {s : State} (hinv : s.Inv) (row : Nat) {col : Nat} (hcol : col < s.params.dispW) :
    (drawRows x y n.toNat s).pixel row col =
      (s.pixel row col ^^ ((s.landings x y n.toNat).count (row, col) % 2 == 1)) := by
  have hstored := storedAt_cellIndex (landings_lt_dispW hinv x y n.toNat) (c := (row, col)) hcol
  calc (drawRows x y n.toNat s).pixel row col
      = Cells.get false (drawRows x y n.toNat s).fb (cellIndex s.params row col) := rfl
    _ = (s.pixel row col ^^ (storedAt s.params (s.landings x y n.toNat) (cellIndex s.params row col) % 2 == 1)) := by
        rw [(drawRows_eq_fold x y n hinv).1, get_foldl_place s.params _ (canonical_fb_of_inv hinv), State.pixel]
    _ = _ := by rw [hstored]

/-- Settles O27: a draw is its landings placed one after another, and each toggles its own cell. -/
theorem drawXorsEveryCell : Obligations.DrawXorsEveryCell := fun x y n _ hinv hread =>
  ⟨_, exec_drw_of_readable hread, fun row _ _ hcol => pixel_drawRows x y n hinv row hcol⟩

/-! ### The collision flag -/

/-- Placed in the order of the list on a display where `on` says which cells are lit, some pixel meets a lit cell. -/
def Collision (on : Nat × Nat → Bool) (L : List (Nat × Nat)) : Prop :=
  ∃ before c after, L = before ++ c :: after ∧ (on c ^^ (before.count c % 2 == 1)) = true

theorem collision_concat (on : Nat × Nat → Bool) (L : List (Nat × Nat)) (c : Nat × Nat) :
    Collision on (L ++ [c]) ↔ Collision on L ∨ (on c ^^ (L.count c % 2 == 1)) = true := by
  constructor
  · rintro ⟨before, d, after, hsplit, hlit⟩
    rcases List.eq_nil_or_concat after with rfl | ⟨after', e, rfl⟩
    · obtain ⟨rfl, hcd⟩ := List.append_inj' hsplit rfl
      obtain rfl : c = d := List.singleton_inj.mp hcd
      exact .inr hlit
    · rw [List.concat_eq_append, ← List.cons_append, ← List.append_assoc] at hsplit
      exact .inl ⟨before, d, after', (List.append_inj' hsplit rfl).1, hlit⟩
  · rintro (⟨before, d, after, rfl, hlit⟩ | hlit)
    · exact ⟨before, d, after ++ [c], by simp, hlit⟩
    · exact ⟨L, c, [], rfl, hlit⟩

/-- Where no cell is listed twice, the earlier pixels do not matter. -/
theorem collision_iff_of_nodup {on : Nat × Nat → Bool} {L : List (Nat × Nat)} (h : L.Nodup) :
    Collision on L ↔ ∃ c ∈ L, on c = true := by
  have hfirst : ∀ before c after, L = before ++ c :: after → before.count c = 0 := fun before c after hsplit => by
    rw [hsplit] at h
    exact List.count_eq_zero.mpr fun hc => (List.nodup_append.mp h).2.2 c hc c List.mem_cons_self rfl
  constructor
  · rintro ⟨before, c, after, hsplit, hlit⟩
    rw [hfirst before c after hsplit] at hlit
    exact ⟨c, by rw [hsplit]; simp, by simpa using hlit⟩
  · rintro ⟨c, hc, hlit⟩
    obtain ⟨before, after, hsplit⟩ := List.append_of_mem hc
    exact ⟨before, c, after, hsplit, by rw [hfirst before c after hsplit, hlit]; rfl⟩

/-- Placing lit pixels sets the flag exactly at a collision (R147). -/
theorem vf_foldl_place {p : Config.Params} {L : List (Nat × Nat)} (hL : ∀ c ∈ L, c.2 < p.dispW) {b : Blit}
    (hb : Cells.Canonical false b.fb) :
    (Collision (fun c => Cells.get false b.fb (cellIndex p c.1 c.2)) L → (L.foldl (place p) b).vf = 1#8) ∧
    (¬ Collision (fun c => Cells.get false b.fb (cellIndex p c.1 c.2)) L → (L.foldl (place p) b).vf = b.vf) := by
  induction L using List.reverseRecOn with
  | nil => exact ⟨fun ⟨_, _, _, h, _⟩ => by simp at h, fun _ => rfl⟩
  | append_singleton L c ih =>
    have hLc : ∀ d ∈ L, d.2 < p.dispW := fun d hd => hL d (List.mem_append_left _ hd)
    obtain ⟨ihset, ihkeep⟩ := ih hLc
    have hcell : Cells.get false (L.foldl (place p) b).fb (cellIndex p c.1 c.2) =
        (Cells.get false b.fb (cellIndex p c.1 c.2) ^^ (L.count c % 2 == 1)) := by
      rw [get_foldl_place p L hb, storedAt_cellIndex hLc (hL c (by simp))]
    have hvf : ((L ++ [c]).foldl (place p) b).vf =
        if (Cells.get false b.fb (cellIndex p c.1 c.2) ^^ (L.count c % 2 == 1)) = true then 1#8
        else (L.foldl (place p) b).vf := by
      rw [List.foldl_append, List.foldl_cons, List.foldl_nil, ← hcell]
      simp only [place, blitPixel, flagAfterPixel, flagCollision, Bool.and_true]
    rw [collision_concat, hvf]
    split
    · next hlit => exact ⟨fun _ => rfl, fun hnone => absurd (.inr hlit) hnone⟩
    · next hlit =>
      exact ⟨fun h => ihset (h.resolve_right hlit), fun hnone => ihkeep fun h => hnone (.inl h)⟩

theorem vf_drawRows (x y n : Nibble) {s : State} (hinv : s.Inv) :
    (Collision (fun c => s.pixel c.1 c.2) (s.landings x y n.toNat) → (drawRows x y n.toNat s).reg 0xF#4 = 1#8) ∧
    (¬ Collision (fun c => s.pixel c.1 c.2) (s.landings x y n.toNat) → (drawRows x y n.toNat s).reg 0xF#4 = 0#8) := by
  rw [(drawRows_eq_fold x y n hinv).2]
  exact vf_foldl_place (b := ⟨s.fb, 0#8⟩) (landings_lt_dispW hinv x y n.toNat) (canonical_fb_of_inv hinv)

/-- Settles O28: the cell a pixel meets is the old one toggled by the earlier landings. -/
theorem drawCollisionFlag : Obligations.DrawCollisionFlag := fun x y n _ hinv hread =>
  ⟨_, exec_drw_of_readable hread, (vf_drawRows x y n hinv).1, (vf_drawRows x y n hinv).2⟩

/-! ### Draws without overlap -/

/-- No two pixels of a sprite of `n` rows can land on one cell: clip mode, or a display the sprite fits in (R148). -/
abbrev NoOverlap (p : Config.Params) (n : Nat) : Prop := p.wrapMode = false ∨ (8 ≤ p.dispW ∧ n ≤ p.dispH)

theorem nodup_landings (x y : Nibble) {n : Nat} {s : State} (h : NoOverlap s.params n) : (s.landings x y n).Nodup := by
  have hinj : ∀ {r r' k k' : Nat} {c : Nat × Nat}, r < n → r' < n → k < 8 → k' < 8 →
      (if s.lit r k then landing s.params (s.origin x y).1 (s.origin x y).2 r k else none) = some c →
      (if s.lit r' k' then landing s.params (s.origin x y).1 (s.origin x y).2 r' k' else none) = some c →
      r = r' ∧ k = k' := by
    intro r r' k k' c hr hr' hk hk' hc hc'
    obtain ⟨-, hc⟩ := Option.ite_none_right_eq_some.mp hc
    obtain ⟨-, hc'⟩ := Option.ite_none_right_eq_some.mp hc'
    exact landing_inj h hr hr' hk hk' hc hc'
  refine List.pairwise_flatMap.mpr ⟨fun r hr => List.pairwise_filterMap.mpr ?_, ?_⟩
  · refine List.pairwise_lt_range.imp_of_mem fun {k k'} hk hk' hlt c hc c' hc' heq => ?_
    have hr := List.mem_range.mp hr
    have := (hinj hr hr (List.mem_range.mp hk) (List.mem_range.mp hk') hc (heq ▸ hc')).2
    omega
  · refine List.pairwise_lt_range.imp_of_mem fun {r r'} hr hr' hlt c hc c' hc' heq => ?_
    obtain ⟨k, hk, hc⟩ := List.mem_filterMap.mp hc
    obtain ⟨k', hk', hc'⟩ := List.mem_filterMap.mp hc'
    have := (hinj (List.mem_range.mp hr) (List.mem_range.mp hr') (List.mem_range.mp hk) (List.mem_range.mp hk') hc
      (heq ▸ hc')).1
    omega

/-- Settles O29: a landing gives back its row and its pixel. -/
theorem landingsDoNotOverlap : Obligations.LandingsDoNotOverlap := fun x y _ _ _ h => nodup_landings x y h

/-- Without overlap a cell on which pixel `k` of row `r` is placed is XORed with that pixel. -/
theorem pixel_drawRows_of_landing {x y n : Nibble} {s : State} (hinv : s.Inv) (h : NoOverlap s.params n.toNat)
    {r k row col : Nat} (hr : r < n.toNat) (hk : k < 8)
    (hland : landing s.params (s.origin x y).1 (s.origin x y).2 r k = some (row, col)) :
    (drawRows x y n.toNat s).pixel row col = (s.pixel row col ^^ s.lit r k) := by
  rw [pixel_drawRows x y n hinv row (landing_bounds hinv.1 hland).2]
  cases hlit : s.lit r k with
  | true =>
    rw [List.count_eq_one_of_mem (nodup_landings x y h) (mem_landings.mpr ⟨r, hr, k, hk, hlit, hland⟩)]
    rfl
  | false =>
    have hnot : (row, col) ∉ s.landings x y n.toNat := fun hmem => by
      obtain ⟨r', hr', k', hk', hlit', hland'⟩ := mem_landings.mp hmem
      obtain ⟨rfl, rfl⟩ := landing_inj h hr hr' hk hk' hland hland'
      rw [hlit] at hlit'
      cases hlit'
    rw [List.count_eq_zero.mpr hnot]
    rfl

/-- Settles O31: the last column and row and the wrapped column and row 0 are where pixels 0 and 1 of rows 0 and 1
land. -/
theorem drawWrapsAtCorner : Obligations.DrawWrapsAtCorner := by
  intro x y n s hinv hread hwrap hwide htwo htall horigin
  have hno : NoOverlap s.params n.toNat := .inr ⟨hwide, htall⟩
  have hland : ∀ r k, landing s.params (s.origin x y).1 (s.origin x y).2 r k =
      some ((s.params.dispH - 1 + r) % s.params.dispH, (s.params.dispW - 1 + k) % s.params.dispW) := fun r k => by
    rw [landing, if_pos hwrap, horigin]
  have hlast : ∀ {m : Nat}, 1 ≤ m → (m - 1 + 0) % m = m - 1 := fun hm => Nat.mod_eq_of_lt (by omega)
  have hwrapped : ∀ {m : Nat}, 1 ≤ m → (m - 1 + 1) % m = 0 := fun hm => by
    rw [Nat.sub_add_cancel hm, Nat.mod_self]
  obtain ⟨hw, hh⟩ := hinv.1
  refine ⟨_, exec_drw_of_readable hread, ?_, ?_, ?_, ?_⟩
  · exact pixel_drawRows_of_landing hinv hno (by omega) (by omega) (by rw [hland, hlast hh, hlast hw])
  · exact pixel_drawRows_of_landing hinv hno (by omega) (by omega) (by rw [hland, hlast hh, hwrapped hw])
  · exact pixel_drawRows_of_landing hinv hno (by omega) (by omega) (by rw [hland, hwrapped hh, hlast hw])
  · exact pixel_drawRows_of_landing hinv hno (by omega) (by omega) (by rw [hland, hwrapped hh, hwrapped hw])

/-- Settles O32: in clip mode a cell of the display is a landing exactly of its offset from the origin, which is in the
sprite's box or of no pixel. -/
theorem drawClipsAtEdges : Obligations.DrawClipsAtEdges := by
  intro x y n s hinv hread hclip
  refine ⟨_, exec_drw_of_readable hread, fun row col hrow hcol => ?_⟩
  have hland : ∀ r k, landing s.params (s.origin x y).1 (s.origin x y).2 r k =
      if (s.origin x y).1 + r < s.params.dispH ∧ (s.origin x y).2 + k < s.params.dispW
      then some ((s.origin x y).1 + r, (s.origin x y).2 + k) else none := fun r k => by
    rw [landing, hclip]
    rfl
  split
  · next hbox =>
    obtain ⟨hrow0, hrown, hcol0, hcol8⟩ := hbox
    refine pixel_drawRows_of_landing hinv (.inl hclip) (by omega) (by omega) ?_
    rw [hland, Nat.add_sub_cancel' hrow0, Nat.add_sub_cancel' hcol0, if_pos ⟨hrow, hcol⟩]
  · next hbox =>
    have hnot : (row, col) ∉ s.landings x y n.toNat := fun hmem => by
      obtain ⟨r, hr, k, hk, -, hat⟩ := mem_landings.mp hmem
      rw [hland] at hat
      obtain ⟨-, hat⟩ := Option.ite_none_right_eq_some.mp hat
      obtain ⟨rfl, rfl⟩ := Prod.mk.inj (Option.some.inj hat)
      omega
    rw [pixel_drawRows x y n hinv row hcol, List.count_eq_zero.mpr hnot]
    exact Bool.xor_false _

/-! ### The same draw twice -/

/-- A draw that completed leaves its own reads permitted (R37). -/
theorem readable_after_drw {x y n : Nibble} {s t : State} (h : exec (.drw x y n) s = .next t) :
    t.Readable (.drw x y n) := by
  have hnext := exec_next_cases h
  obtain ⟨-, -, -, hparams⟩ := execNext_sameHostSide hnext
  have hkeep : ∀ j, s.regReadable j = true → t.regReadable j = true := fun j hj => by
    rw [regReadable_iff, hparams]
    exact ((regReadable_iff s j).mp hj).imp_right fun hbit => (execNext_regWritten_iff hnext j).mpr (.inr hbit)
  have hindex : t.indexReadable = s.indexReadable :=
    indexReadable_congr (execNext_index hnext fun _ he => nomatch he).2 (by rw [hparams])
  have hread : s.Readable (.drw x y n) := by
    by_contra hnot
    rw [exec_of_not_readable hnot] at h
    cases h
  obtain ⟨hx, hy, hrows⟩ := hread
  exact ⟨hkeep x hx, hkeep y hy, by rwa [hindex]⟩

/-- The landings come from the two origin registers, `I`, memory and the parameters (R142 to R146). -/
theorem landings_congr {x y : Nibble} {s s' : State} (hx : s'.reg x = s.reg x) (hy : s'.reg y = s.reg y)
    (hi : s'.index = s.index) (hm : s'.mem = s.mem) (hp : s'.params = s.params) (height : Nat) :
    s'.landings x y height = s.landings x y height := by
  have horigin : s'.origin x y = s.origin x y := by simp only [State.origin, hx, hy, hp]
  have hlit : s'.lit = s.lit := by
    funext r k
    simp only [State.lit, memRead_congr hm, hi]
  rw [State.landings, State.landings, horigin, hlit, hp]

/-- Placing the same pixels again restores the framebuffer: each cell is toggled an even number of times. -/
theorem foldl_place_twice_fb (p : Config.Params) (L : List (Nat × Nat)) {b b' : Blit} (hb : Cells.Canonical false b.fb)
    (h : b'.fb = (L.foldl (place p) b).fb) : (L.foldl (place p) b').fb = b.fb := by
  have hb' : Cells.Canonical false b'.fb := by
    rw [h]
    exact foldl_place_canonical p L b hb
  refine Cells.ext false _ _ (foldl_place_canonical p L b' hb') hb fun a => ?_
  rw [get_foldl_place p L hb', h, get_foldl_place p L hb, Bool.xor_assoc, Bool.xor_self, Bool.xor_false]

/-- Settles O30: the second draw places the same pixels on the display the first one left. -/
theorem drawTwiceRestoresDisplay : Obligations.DrawTwiceRestoresDisplay := by
  intro x y n s t pc' hinv hexec hx hy
  have hread : t.Readable (.drw x y n) := readable_after_drw hexec
  obtain rfl := eq_drawRows_of_exec hexec
  have hinv' : State.Inv { drawRows x y n.toNat s with pc := pc' } := by
    obtain ⟨hparams, hmem, hfb, hrest⟩ := hinv
    exact ⟨hparams, hmem, drawBlit_wf x y n s hparams hfb, hrest⟩
  have hlandings : State.landings { drawRows x y n.toNat s with pc := pc' } x y n.toNat = s.landings x y n.toNat :=
    landings_congr hx hy rfl rfl rfl n.toNat
  refine ⟨_, exec_drw_of_readable (s := { drawRows x y n.toNat s with pc := pc' }) hread, ?_, fun hnodup => ?_⟩
  · rw [(drawRows_eq_fold x y n hinv').1, hlandings]
    exact foldl_place_twice_fb s.params _ (b := ⟨s.fb, 0#8⟩) (canonical_fb_of_inv hinv) (drawRows_eq_fold x y n hinv).1
  · have hflag := vf_drawRows x y n hinv'
    rw [hlandings, collision_iff_of_nodup hnodup] at hflag
    have hcell : ∀ c ∈ s.landings x y n.toNat,
        State.pixel { drawRows x y n.toNat s with pc := pc' } c.1 c.2 = !s.pixel c.1 c.2 := fun c hc => by
      show (drawRows x y n.toNat s).pixel c.1 c.2 = _
      rw [pixel_drawRows x y n hinv c.1 (landings_lt_dispW hinv x y n.toNat c hc),
        List.count_eq_one_of_mem hnodup hc]
      exact Bool.xor_true _
    refine ⟨fun ⟨c, hc, hoff⟩ => hflag.1 ⟨c, hc, ?_⟩, fun hon => hflag.2 fun ⟨c, hc, hlit⟩ => ?_⟩
    · rw [hcell c hc, hoff]
      rfl
    · rw [hcell c hc, hon c hc] at hlit
      cases hlit

/-! ### The height check -/

/-- Settles O33: the check comes first, and the four bits of a DRW's height never fail it. -/
theorem tallSpriteIsRecoverable : Obligations.TallSpriteIsRecoverable := by
  refine ⟨fun x y height word s htall => if_pos htall, fun x y n s t hexec => ?_⟩
  obtain rfl := eq_drawRows_of_exec hexec
  exact ⟨rfl, rfl⟩

end Sys2Proof.Machine

/-! PROOF. Memory and the host (R50 to R55, R187, R195 to R201, R220 to R231): what is read after a write, the moves
between steps, and the runner. -/

namespace Sys2Proof

theorem tableWord_toNat (w : Word) : tableWord 16 w.toNat = w := by
  rw [tableWord, Nat.mod_eq_of_lt w.isLt, BitVec.ofNat_toNat, BitVec.setWidth_eq]

/-- A word is its two bytes, most significant first (R55). -/
theorem wordOfBytes_extract (w : Word) : wordOfBytes (w.extractLsb' 8 8) (w.extractLsb' 0 8) = w := by
  rw [wordOfBytes, BitVec.extractLsb'_append_extractLsb'_eq_extractLsb' (by rfl)]
  exact BitVec.extractLsb'_eq_self

end Sys2Proof

namespace Sys2Proof.Machine

/-! ### Memory -/

/-- Settles O49: a write and a read meet exactly where the translator takes both addresses to one byte. -/
theorem readAfterHostWrite : Obligations.ReadAfterHostWrite := fun s a b v hm =>
  byteAt_memWrite s hm a (translate b) v

/-- A word placed at a valid `pc`: memory reads as that word there, and no other byte changes. -/
theorem wordAt_storeWordAtPc {s : State} (hpc : pcValid s.pc = true) (hm : Memory.wf s.mem) (w : Word) :
    (s.storeWordAtPc w).wordAt s.pc.toNat = w ∧
    ∀ a, a ≠ s.pc.toNat → a ≠ s.pc.toNat + 1 → (s.storeWordAtPc w).byteAt a = s.byteAt a := by
  obtain ⟨hlt, -⟩ := (pcValid_iff s.pc).mp hpc
  have hlen : (wordBytes w).length = 2 := rfl
  obtain ⟨hplaced, hother⟩ := byteAt_writeBytes (wordBytes w) s s.pc.toNat hm (by omega)
  have hhigh : (s.storeWordAtPc w).byteAt s.pc.toNat = w.extractLsb' 8 8 := hplaced 0 (by omega)
  have hlow : (s.storeWordAtPc w).byteAt (s.pc.toNat + 1) = w.extractLsb' 0 8 := hplaced 1 (by omega)
  refine ⟨?_, fun a h0 h1 => hother a (by omega)⟩
  rw [State.wordAt, hhigh, hlow, wordOfBytes_extract]

/-- Settles O57: the placing leaves `pc` and the run-state alone, so the next step fetches the placed word. -/
theorem placedWordRunsNext : Obligations.PlacedWordRunsNext := by
  intro s w hfetch hm
  rw [State.withFetchWord, tableWord_toNat]
  obtain ⟨hword, hother⟩ := wordAt_storeWordAtPc hfetch.2 hm w
  have hfields : s.storeWordAtPc w = { s with mem := (s.storeWordAtPc w).mem } := writeBytes_fields _ s _
  have hpc : (s.storeWordAtPc w).pc = s.pc := congrArg (fun t => t.pc) hfields
  have hrun : (s.storeWordAtPc w).runState = s.runState := congrArg (fun t => t.runState) hfields
  have hfetch' : (s.storeWordAtPc w).CanFetch := by rw [State.CanFetch, hpc, hrun]; exact hfetch
  refine ⟨?_, hfields, hother⟩
  rw [step_of_canFetch _ hfetch', hpc, hword, State.advance, State.setPc, hpc]

/-! ### The moves between steps -/

/-- Settles O50: an image that fits is copied by the byte writes of the load, which change memory alone. -/
theorem loadPlacesImage : Obligations.LoadPlacesImage := by
  intro m image hfresh hm hfits
  have hdrive : drive (.load image) m = .next { m with core := m.core.loadImage image } :=
    (if_neg (Bool.eq_false_iff.mp hfresh)).trans (if_pos (decide_eq_true hfits))
  obtain ⟨hplaced, hother⟩ := byteAt_writeBytes image m.core m.core.params.entry.toNat hm hfits
  exact ⟨_, hdrive, hfresh, writeBytes_fields image m.core _, hplaced, hother⟩

theorem started_of_driveNext {move : HostMove} {m m' : Rig} (h : DriveNext m move m') (hstarted : m.started = true)
    (hne : move ≠ .reset) : m'.started = true := by
  cases h with
  | reset => exact absurd rfl hne
  | step => rfl
  | load | writeByte | writeTimer | setRunState => exact hstarted

/-- Settles O51: the loader's test, the test for a started rig, and who writes that bit. -/
theorem hostMemoryWritesRefused : Obligations.HostMemoryWritesRefused := by
  refine ⟨fun m image hfresh hlong => ?_, fun m image a v hstarted => ?_, fun m m' keys hdrive => ?_,
    fun move m m' hstarted hne hdrive => started_of_driveNext (drive_next_cases hdrive) hstarted hne⟩
  · have hnot : ¬ imageFits m.core.params image = true := fun hfits =>
      Nat.not_le.mpr hlong (of_decide_eq_true hfits)
    exact (if_neg (Bool.eq_false_iff.mp hfresh)).trans (if_neg hnot)
  · exact ⟨if_pos hstarted, if_pos hstarted⟩
  · cases drive_next_cases hdrive
    rfl

/-- The transitions of R187 that need nothing but the two run-states. -/
def hostTransitions : List (RunState × RunState) :=
  [(.running, .paused), (.paused, .running), (.paused, .stepping), (.running, .halted), (.paused, .halted),
    (.stepping, .halted), (.halted, .halted)]

/-- The table of R187: beside those, Stepping to Paused, which asks for more. -/
theorem hostMay_iff (r r' : RunState) :
    r.hostMay r' = true ↔ (r, r') ∈ hostTransitions ∨ (r = .stepping ∧ r' = .paused) := by
  cases r <;> cases r' <;> decide

theorem mayEnter_iff (m : Rig) (r : RunState) : m.mayEnter r = true ↔
    (m.core.runState, r) ∈ hostTransitions ∨ (m.core.runState = .stepping ∧ r = .paused ∧ m.stepped = true) := by
  rw [Rig.mayEnter, Bool.and_eq_true, hostMay_iff]
  by_cases hleave : m.core.runState = .stepping ∧ r = .paused
  · obtain ⟨hstepping, hpaused⟩ := hleave
    rw [hstepping, hpaused]
    have hunlisted : (RunState.stepping, RunState.paused) ∉ hostTransitions := by decide
    simp [hunlisted]
  · have hfree : (m.core.runState != .stepping || r != .paused) = true := by
      simpa only [Bool.or_eq_true, bne_iff_ne, ← not_and_or] using hleave
    rw [hfree, Bool.true_or]
    simp only [hleave, or_false, and_true, ← and_assoc, false_and]

/-- Settles O52: the test for a started rig, then the table. -/
theorem hostRunStateTransitions : Obligations.HostRunStateTransitions := by
  refine fun m r => ⟨fun hfresh => if_pos hfresh, fun hstarted hlisted => ?_, fun hstarted hlisted => ?_⟩
  · exact (if_neg (ne_false_of_eq_true hstarted)).trans (if_pos ((mayEnter_iff m r).mpr hlisted))
  · exact (if_neg (ne_false_of_eq_true hstarted)).trans (if_neg fun h => hlisted ((mayEnter_iff m r).mp h))

/-- Settles O53: a load and a byte write change memory alone and only in a fresh rig; a timer and a run-state write
change the piece they name. -/
theorem hostFrame : Obligations.HostFrame := by
  intro move m m' hdrive hreset hstep
  cases drive_next_cases hdrive with
  | load image hfresh =>
    rw [State.loadImage, writeBytes_fields]
    exact ⟨rfl, rfl, rfl, rfl, rfl, rfl, rfl, rfl, rfl, rfl, fun h => absurd h (Bool.eq_false_iff.mp hfresh)⟩
  | writeByte a v hfresh =>
    exact ⟨rfl, rfl, rfl, rfl, rfl, rfl, rfl, rfl, rfl, rfl, fun h => absurd h (Bool.eq_false_iff.mp hfresh)⟩
  | writeTimer which v =>
    cases which with
    | delay | sound => exact ⟨rfl, rfl, rfl, rfl, rfl, rfl, rfl, rfl, rfl, rfl, fun _ => rfl⟩
  | setRunState => exact ⟨rfl, rfl, rfl, rfl, rfl, rfl, rfl, rfl, rfl, rfl, fun _ => rfl⟩
  | step keys => exact absurd rfl (hstep keys)
  | reset => exact absurd rfl hreset

/-- Settles O55: a reset constructs, and a timer write asks only whether the first step has been taken. -/
theorem resetAndTimerMoves : Obligations.ResetAndTimerMoves := fun _ =>
  ⟨rfl, fun hstarted _ => ⟨if_pos hstarted, if_pos hstarted⟩,
    fun hfresh _ _ => if_neg (Bool.eq_false_iff.mp hfresh)⟩

/-- Settles O56: the tables of codes, entry by entry. -/
theorem numericCodes : Obligations.NumericCodes :=
  ⟨rfl, rfl, rfl, rfl, rfl, rfl, rfl, fun _ => rfl, fun _ => rfl, rfl, rfl, rfl, rfl⟩

/-! ### The step move -/

/-- Every arm of the execution multiplexer has a meaning. -/
theorem step_ne_refused (s : State) (r : Refusal) : step s ≠ .refused r := by
  intro hstep
  rcases runCycle_cases exec s with ⟨_, h⟩ | ⟨_, _, h⟩ | ⟨_, _, h⟩
  · cases h.symm.trans hstep
  · cases h.symm.trans hstep
  · rcases exec_stop_cases (decode (s.wordAt s.pc.toNat)) s.advance with ⟨t, h'⟩ | ⟨h', _⟩ | ⟨h', _⟩ <;>
      cases (h.trans h').symm.trans hstep

/-- Settles O58: the move is the step with the host's keys in the port, which the step keeps and which is refused by no
instruction; a byte write is refused only in a started rig. -/
theorem stepAndByteMoves : Obligations.StepAndByteMoves := by
  refine ⟨fun m keys t hstep => ⟨?_, takeStep_of_next hstep⟩, fun m keys f hstep => takeStep_of_fault hstep,
    fun m keys r hdrive => ?_, fun m a v hfresh => if_neg (Bool.eq_false_iff.mp hfresh)⟩
  · obtain ⟨⟨-, -, hkeys, -⟩, -⟩ := stepWritesNothingOfTheHost _ t hstep
    exact hkeys
  · simp only [drive, Rig.takeStep] at hdrive
    split at hdrive
    · cases hdrive
    · cases hdrive
    · next r' hstep => exact step_ne_refused _ r' hstep

/-! ### The runner -/

/-- A fatal result is the end of a step, and so of a Halted machine (D10). -/
theorem halted_of_fatal_step {m m' : Rig} {keys : Vector Bool 16} {k : FatalKind} (h : drive (.step keys) m = .next m')
    (hk : m'.core.result = .fatal k) : m'.core.runState = .halted := by
  cases drive_next_cases h with
  | step _ t hstep => exact (haltsExactlyOnFatal _ t hstep).1.mpr ⟨k, hk⟩

/-- What is true of the final state of a run that has one: it is Halted, and a fatal end has its own result. -/
def RunEnd.FinalHalted : RunEnd → Prop
  | .fatal k final => final.core.runState = .halted ∧ final.core.result = .fatal k
  | .quit final => final.core.runState = .halted
  | .outOfFuel | .stopped _ | .noMove _ => True

theorem finalHalted_of_ending {move : HostMove} {m m' : Rig} {e : RunEnd} (h : drive move m = .next m')
    (he : move.ending m' = some e) : e.FinalHalted := by
  rcases ending_cases he with ⟨keys, k, rfl, hk, rfl⟩ | ⟨rfl, rfl⟩
  · exact ⟨halted_of_fatal_step h hk, hk⟩
  · cases drive_next_cases h with
    | setRunState => rfl

theorem runHost_of_fault {host : Nat → HostMove} {j : Nat} {m : Rig} {f : Fault} (h : drive (host j) m = .fault f)
    (fuel : Nat) : runHost host (fuel + 1) j m = .stopped f := by
  rw [runHost, h]

theorem runHost_of_refused {host : Nat → HostMove} {j : Nat} {m : Rig} {r : HostRefusal}
    (h : drive (host j) m = .refused r) (fuel : Nat) : runHost host (fuel + 1) j m = .noMove r := by
  rw [runHost, h]

theorem runHost_finalHalted (host : Nat → HostMove) (fuel j : Nat) (m : Rig) :
    (runHost host fuel j m).FinalHalted := by
  induction fuel generalizing j m with
  | zero => trivial
  | succ fuel ih =>
    cases hdrive : drive (host j) m with
    | fault f => rw [runHost_of_fault hdrive]; trivial
    | refused r => rw [runHost_of_refused hdrive]; trivial
    | next m' =>
      rw [runHost_of_next hdrive]
      cases hend : (host j).ending m' with
      | none => exact ih (j + 1) m'
      | some e => exact finalHalted_of_ending hdrive hend

/-- An end that was reached is reached with more fuel too. -/
theorem runHost_add_of_ended (host : Nat → HostMove) (fuel more j : Nat) (m : Rig)
    (h : runHost host fuel j m ≠ .outOfFuel) : runHost host (fuel + more) j m = runHost host fuel j m := by
  induction fuel generalizing j m with
  | zero => exact absurd rfl h
  | succ fuel ih =>
    rw [Nat.add_right_comm]
    cases hdrive : drive (host j) m with
    | fault f => rw [runHost_of_fault hdrive, runHost_of_fault hdrive]
    | refused r => rw [runHost_of_refused hdrive, runHost_of_refused hdrive]
    | next m' =>
      rw [runHost_of_next hdrive] at h
      rw [runHost_of_next hdrive, runHost_of_next hdrive]
      cases hend : (host j).ending m' with
      | none =>
        rw [hend] at h
        exact ih (j + 1) m' h
      | some e => rfl

/-- The two ends of a run at a move, and no other (R229, R231). -/
theorem ending_eq_none {move : HostMove} {m : Rig} (hquit : move ≠ .setRunState .halted)
    (hfatal : ∀ keys k, move = .step keys → m.core.result ≠ .fatal k) : move.ending m = none := by
  cases hend : move.ending m with
  | none => rfl
  | some e =>
    rcases ending_cases hend with ⟨keys, k, hmove, hk, _⟩ | ⟨hmove, _⟩
    · exact absurd hk (hfatal keys k hmove)
    · exact absurd hmove hquit

theorem ending_of_fatal_step {m : Rig} {k : FatalKind} (keys : Vector Bool 16) (hk : m.core.result = .fatal k) :
    (HostMove.step keys).ending m = some (.fatal k m) := by
  rw [HostMove.ending, hk]

/-- Settles O60: one move of the runner, what is true of a final state, and that fuel left over changes nothing. -/
theorem runnerStops : Obligations.RunnerStops := by
  intro host j m
  refine ⟨rfl, fun fuel m' hdrive => ⟨fun keys k hmove hk => ?_, fun hmove => ?_, fun hquit hfatal => ?_⟩,
    fun fuel _ h => runHost_of_fault h fuel, fun fuel _ h => runHost_of_refused h fuel,
    fun fuel k final h => ?_, fun fuel final h => ?_, fun fuel more => runHost_add_of_ended host fuel more j m⟩
  · rw [runHost_of_next hdrive, hmove, ending_of_fatal_step keys hk]
    rfl
  · rw [runHost_of_next hdrive, hmove]
    rfl
  · rw [runHost_of_next hdrive, ending_eq_none hquit hfatal]
    rfl
  · have hfinal := runHost_finalHalted host fuel j m
    rwa [h] at hfinal
  · have hfinal := runHost_finalHalted host fuel j m
    rwa [h] at hfinal

end Sys2Proof.Machine
